-- ==== Sys2Proof/Word.lean ====
section
/-! DEFINITION. The word types of the block: the byte of a byte-serial transport (R52), the 16-bit register (R22) and the
40-bit command word (R70). Bit 0 is the least significant bit (R10). -/

namespace Sys2Proof

/-- One byte of a byte-serial transport (R52). -/
abbrev Byte := BitVec 8

/-- A register of the block, and what the read-back port returns (R22, R50). -/
abbrev Reg := BitVec 16

/-- One command word of the command port (R70). -/
abbrev CmdWord := BitVec 40

end Sys2Proof
end

