-- ==== Sys2Proof/Config.lean ====
section
/-! DEFINITION. The configuration of one block (R6), fixed while it runs, with the reference values of R9, and the block's
constants (R7). The parameters the spec leaves OPEN (D19, D21, D25) are constants without a body. -/

namespace Sys2Proof

/-- The parameters of one block (R6, R38, and the open parameters of spec/92). N is the length of `div`. -/
structure Config where
  /-- CLK_HZ: the timer's input clock frequency in Hz. -/
  clkHz : Nat
  /-- DIV: the divider table, in table order. -/
  div : List Nat
  /-- MODE_WORD: the opaque mode bits a Commit carries (D25). No width is given. DESIGN CHOICE: a number (log 2), safe. -/
  modeWord : Nat
  /-- PORT_BASE: where the host maps the ports (R58, D19). No rule reads it. -/
  portBase : Nat
  /-- CMD_LATENCY: the latency of a command (R213, D21). No rule reads it. -/
  cmdLatency : Nat
  deriving DecidableEq, Repr

/-- The reference block's MODE_WORD: OPEN in D25, so it has no body (log 2). -/
opaque Config.openModeWord : Nat

/-- The reference block's PORT_BASE: OPEN in D19, so it has no body (log 2). -/
opaque Config.openPortBase : Nat

/-- The reference block's CMD_LATENCY: OPEN in D21, so it has no body (log 2). -/
opaque Config.openCmdLatency : Nat

/-- CLK_MHZ = CLK_HZ / 1 000 000, exact in every configuration that is not refused (R6, R8, D8). -/
def Config.clkMHz (c : Config) : Nat := c.clkHz / 1000000

/-- The reference configuration of R9: 16 MHz and dividers 1, 8, 64, 256, 1024 (literals unaudited, log 3). -/
def Config.reference : Config where
  clkHz := 16000000
  div := [1, 8, 64, 256, 1024]
  modeWord := Config.openModeWord
  portBase := Config.openPortBase
  cmdLatency := Config.openCmdLatency

/-- TOP_MAX, the hard limit of the 16-bit counter (R7). Also the largest compare value (R154). -/
abbrev topMax : Nat := 65535

/-- RES_MAX_BITS, the first clamp of SETRES (R7, R122). -/
abbrev resMaxBits : Nat := 16

/-- FRAC_BITS of the WRITEF operand (R7, R151). -/
abbrev fracBits : Nat := 16

end Sys2Proof
end

