-- ==== Sys2Proof/Syntax.lean ====
section
/-! DEFINITION. The commands (R75), one constructor a row of spec/opcode_table.json. Operands are the numbers of R79; their
ranges are checked in WellFormed.lean (log 12). -/

namespace Sys2Proof

/-- The four commands of the block: all of its behaviour but for illegal words (R75, R185). -/
inductive Instr where
  /-- INIT period: solve the period in microseconds, select a divider, commit (R100). -/
  | init (period : Nat)
  /-- SETRES bits: negotiate a resolution width (R120). -/
  | setres (bits : Nat)
  /-- WRITE ch, duty: integer duty cycle scaled by TOP / RES (R140). -/
  | write (ch : Nat) (duty : Nat)
  /-- WRITEF ch, fix: UQ16.16 fraction times TOP (R150, R151). -/
  | writef (ch : Nat) (fix : Nat)
  deriving DecidableEq, Repr

/-- The table's name of a command (R75). -/
def Instr.mnemonic : Instr → String
  | .init _ => "INIT"
  | .setres _ => "SETRES"
  | .write _ _ => "WRITE"
  | .writef _ _ => "WRITEF"

end Sys2Proof
end

