-- ==== Sys2Proof/WellFormed.lean ====
section
/-! DEFINITION. What an operand may be (R79: an assembler refuses an operand out of range and never truncates one) and what a
configuration may be (R6, R8: a model refuses a configuration that breaks a constraint). -/

namespace Sys2Proof

/-- OPND is a 32-bit unsigned field (R70, R74). -/
def operandFits (v : Nat) : Bool := decide (v < 2 ^ 32)

/-- CH is a 2-bit field; 2 and 3 are legal, unknown channels (R70, R72). -/
def channelFits (ch : Nat) : Bool := decide (ch < 4)

/-- A command whose operands the format of R70 can carry (R79). -/
def Instr.wf : Instr → Bool
  | .init p => operandFits p
  | .setres r => operandFits r
  | .write ch d => channelFits ch && operandFits d
  | .writef ch f => channelFits ch && operandFits f

/-- CLK_HZ is a positive multiple of 1 000 000 (R6, D8). -/
def Config.clockOk (c : Config) : Bool := decide (0 < c.clkHz ∧ c.clkHz % 1000000 = 0)

/-- 1 ≤ N ≤ 7, so that the code i + 1 fits the 3-bit CS field (R6, D13). -/
def Config.countOk (c : Config) : Bool := decide (1 ≤ c.div.length ∧ c.div.length ≤ 7)

/-- Every divider is at least 1 (R6, D24). -/
def Config.positiveOk (c : Config) : Bool := decide (∀ d ∈ c.div, 1 ≤ d)

/-- The divider table is strictly ascending (R6, D24). -/
def Config.ascendingOk (c : Config) : Bool := decide (c.div.Pairwise (· < ·))

/-- The constraints of R6. A configuration that breaks one is refused (R8). -/
def Config.wf (c : Config) : Bool :=
  c.clockOk && c.countOk && c.positiveOk && c.ascendingOk

end Sys2Proof
end

