-- ==== Sys2Proof/Decode.lean ====
section
/-! DEFINITION. The command word: its fields (R70), the decoder of R76 (total, refusing by name), the match and mask table of R75, the
encoder (R70, R79), and the byte order of a byte-serial transport (R52, R53). -/

namespace Sys2Proof

/-- OP = w[39:36] (R70, R71). -/
def opField (w : CmdWord) : Nat := (w.extractLsb' 36 4).toNat

/-- CH = w[35:34] (R70, R72). -/
def chField (w : CmdWord) : Nat := (w.extractLsb' 34 2).toNat

/-- RSV = w[33:32] (R70, R73). -/
def rsvField (w : CmdWord) : Nat := (w.extractLsb' 32 2).toNat

/-- OPND = w[31:0], read as an unsigned integer (R70, R74). -/
def opndField (w : CmdWord) : Nat := (w.extractLsb' 0 32).toNat

/-- Why a word is illegal: the three grounds of R77. -/
inductive IllegalWord where
  /-- RSV ≠ 0 (R73). -/
  | reservedBits
  /-- OP is 0 or in 5..15 (R71). -/
  | unassignedOpcode
  /-- OP is 1 or 2 and CH ≠ 0 (R72, D26). -/
  | channelBits
  deriving DecidableEq, Repr

/-- The decoder's verdict on a 40-bit word (R76). Illegal is a verdict with an effect of its own (R175), not a stop. -/
inductive Decoded where
  | instr (i : Instr)
  | illegal (why : IllegalWord)
  deriving DecidableEq, Repr

/-- The decoder, in the order of R76's pseudocode. -/
def decodeWord (w : CmdWord) : Decoded :=
  if rsvField w ≠ 0 then .illegal .reservedBits
  else if opField w = 1 ∧ chField w = 0 then .instr (.init (opndField w))
  else if opField w = 2 ∧ chField w = 0 then .instr (.setres (opndField w))
  else if opField w = 3 then .instr (.write (chField w) (opndField w))
  else if opField w = 4 then .instr (.writef (chField w) (opndField w))
  else if opField w = 1 ∨ opField w = 2 then .illegal .channelBits
  else .illegal .unassignedOpcode

/-- A row of the match and mask table of R75. -/
structure OpcodeRow where
  mnemonic : String
  pattern : CmdWord
  mask : CmdWord
  deriving DecidableEq, Repr

/-- The match and mask table of R75. -/
def opcodeTable : List OpcodeRow :=
  [⟨"INIT", 0x1000000000, 0xFF00000000⟩, ⟨"SETRES", 0x2000000000, 0xFF00000000⟩,
   ⟨"WRITE", 0x3000000000, 0xF300000000⟩, ⟨"WRITEF", 0x4000000000, 0xF300000000⟩]

/-- A word is a row's command exactly when (w AND mask) = match (R75). -/
def rowAccepts (r : OpcodeRow) (w : CmdWord) : Bool := (w &&& r.mask) == r.pattern

/-- A byte-serial command: byte j carries w[8j+7 : 8j] (R52). Only five bytes are a command word; fewer deliver no command (R53).
DEDUCED: more than five are no whole 40-bit word either (log 8), unsafe. -/
def wordOfBytes : List Byte → Option CmdWord
  | [b0, b1, b2, b3, b4] => some (b4 ++ b3 ++ b2 ++ b1 ++ b0 : BitVec (8 + 8 + 8 + 8 + 8))
  | _ => none

/-- The bytes of a command word on a byte-serial transport, byte 0 first (R52). -/
def bytesOfWord (w : CmdWord) : List Byte :=
  [w.extractLsb' 0 8, w.extractLsb' 8 8, w.extractLsb' 16 8, w.extractLsb' 24 8, w.extractLsb' 32 8]

/-- The bytes of a register read on a byte-serial transport, byte 0 first (R52). -/
def bytesOfReg (r : Reg) : List Byte := [r.extractLsb' 0 8, r.extractLsb' 8 8]

/-- The decoder on bytes: none where the bytes deliver no command (R53). -/
def decodeBytes (bs : List Byte) : Option Decoded := (wordOfBytes bs).map decodeWord

/-- What the host's opcode-table words decode to: a word is one 40-bit command, numbered as R10 numbers it; bits above `nbits` are 0. -/
def decodeTableWord (nbits w : Nat) : Option Instr :=
  match decodeBytes (bytesOfWord (BitVec.ofNat 40 (w % 2 ^ nbits))) with
  | some (.instr i) => some i
  | _ => none

/-- OP of a command (R75). -/
def opcodeOf : Instr → Nat
  | .init _ => 1
  | .setres _ => 2
  | .write _ _ => 3
  | .writef _ _ => 4

/-- CH of a command: 0 for INIT and SETRES (R70, R79). -/
def channelOf : Instr → Nat
  | .init _ => 0
  | .setres _ => 0
  | .write ch _ => ch
  | .writef ch _ => ch

/-- OPND of a command (R74). -/
def operandOf : Instr → Nat
  | .init p => p
  | .setres r => r
  | .write _ d => d
  | .writef _ f => f

/-- The word {OP, CH, RSV, OPND} of R70. -/
def packWord (op ch rsv opnd : Nat) : CmdWord :=
  BitVec.ofNat 40 (op * 2 ^ 36 + ch * 2 ^ 34 + rsv * 2 ^ 32 + opnd)

/-- The word of a well-formed command (R70, R75). -/
def encode (i : Instr) : CmdWord := packWord (opcodeOf i) (channelOf i) 0 (operandOf i)

end Sys2Proof
end

