-- ==== Sys2Proof/Machine/State.lean ====
section
/-! DEFINITION. The state of the block (R22, R33), what the host does to it, the reasons a step can stop, and reset (R200, R201). -/

namespace Sys2Proof.Machine

/-- The two output channels (R7, R14). -/
inductive Channel where
  /-- Channel A, identifier 0 (R72). -/
  | a
  /-- Channel B, identifier 1 (R72). -/
  | b
  deriving DecidableEq, Repr

/-- The status codes of R171. Codes 6 and 7 are never produced. -/
inductive StatusCode where
  | ok
  | unrepresentablePeriod
  | unknownChannel
  | zeroResolution
  | fracSaturated
  | illegalCommand
  deriving DecidableEq, Repr

/-- An event of the timer port (R33). -/
inductive TimerEvent where
  /-- The atomic INIT bundle (R33, R56): mode word, counter, boundary, clock select and pins request change together. -/
  | commit (mode : Nat) (counter : Reg) (boundary : Reg) (cs : BitVec 3) (pinsOutput : BitVec 1)
  /-- One compare register written (R33, R57). -/
  | setCompare (ch : Channel) (v : Reg)
  deriving DecidableEq, Repr

/-- CTRL (R26). Bits [15:5] are hard-wired zeros and need no storage. -/
structure Ctrl where
  /-- CTRL[2:0], the clock-select code last committed (R27). -/
  cs : BitVec 3
  /-- CTRL[3], 1 once a successful INIT has applied MODE_WORD, boundary and clock select (R29). -/
  cfg : BitVec 1
  /-- CTRL[4], 1 once a successful INIT has requested the pins as outputs (R28). -/
  oe : BitVec 1
  deriving DecidableEq, Repr

/-- What the host can do at the ports (R50) and the reset input (R200), in the order the block takes them (R60, R65). DESIGN CHOICE (log 5), safe. -/
inductive HostAccess where
  /-- A whole-word write to the command port (R50, R70). -/
  | command (w : CmdWord)
  /-- The bytes a byte-serial transport delivers for one command write (R52, R53). -/
  | bytes (bs : List Byte)
  /-- A read of register number n on the read-back port (R50). -/
  | read (n : BitVec 3)
  /-- The reset input, with the command in progress it abandons, if any (R200). -/
  | reset (abandoned : Option CmdWord)
  deriving DecidableEq, Repr

/-- The state. The registers and the history are all the state the block has (R22, R33, R37); config, pending and replies are the model's own. -/
structure State where
  /-- The configuration: a parameter of the step, not state of the block (R6, R38). DESIGN CHOICE: carried here, never written (log 1), safe. -/
  config : Config
  /-- TOP, register 0 (R23). -/
  top : Reg
  /-- RES, register 1 (R24). -/
  res : Reg
  /-- CMPA, register 2 (R25). -/
  cmpA : Reg
  /-- CMPB, register 3 (R25). -/
  cmpB : Reg
  /-- CTRL, register 4 (R26). -/
  ctrl : Ctrl
  /-- STATUS.CODE, bits [2:0] of register 5; STATUS[15:3] is hard-wired zero (R30). -/
  code : BitVec 3
  /-- RESULT, register 6 (R31). -/
  result : Reg
  /-- The timer-port history, append-only, oldest first (R33). -/
  history : List TimerEvent
  /-- The host's accesses the block has not taken yet, oldest first (R60, R207). DESIGN CHOICE (log 5), safe. -/
  pending : List HostAccess
  /-- The answers of the read-back port, oldest first (R50, R60). DESIGN CHOICE (log 6), safe. -/
  replies : List Reg
  deriving DecidableEq, Repr

/-- Why the machine stops with a fault: never. Every error is a status code and the next command runs normally (R170, R180, R181;
DEDUCED, log 14). -/
inductive Fault where
  deriving DecidableEq, Repr

/-- Why a step is refused. -/
inductive Refusal where
  /-- Raised by exec for an instruction that has no meaning yet; no arm raises it in this model. Safe. -/
  | notModelled (mnemonic : String)
  /-- Raised by every meaning in a configuration that breaks a constraint of R6: it has no semantics (R8, D8, D24; log 4). Safe. -/
  | configurationRefused
  deriving DecidableEq, Repr

/-- CTRL after reset: no clock selected, unconfigured, pins not requested (R201). -/
def Ctrl.atReset : Ctrl where
  cs := 0
  cfg := 0
  oe := 0

/-- The block with configuration c right after reset (R200, R201). The model's own lists are empty (logs 5 and 6). -/
def State.resetOf (c : Config) : State where
  config := c
  top := 0
  res := 0
  cmpA := 0
  cmpB := 0
  ctrl := Ctrl.atReset
  code := 0
  result := 0
  history := []
  pending := []
  replies := []

/-- The reference block right after reset (R9, R201; log 3). -/
def State.reset : State := State.resetOf Config.reference

end Sys2Proof.Machine
end

