-- ==== Sys2Proof/Machine/Flags.lean ====
section
/-! DEFINITION. The block's only condition indicator is STATUS.CODE (R35): the number of each status code (R171). -/

namespace Sys2Proof.Machine

/-- The number of a status code in STATUS[2:0] (R171). -/
def StatusCode.bits : StatusCode → BitVec 3
  | .ok => 0
  | .unrepresentablePeriod => 1
  | .unknownChannel => 2
  | .zeroResolution => 3
  | .fracSaturated => 4
  | .illegalCommand => 5

end Sys2Proof.Machine
end

