-- ==== Sys2Proof/Machine/Operands.lean ====
section
/-! DEFINITION. How each command interprets its operand (R72, R74): the channel identifier, the clamps, the exact scalings. -/

namespace Sys2Proof.Machine

/-- The channel a CH identifier selects; 2 and 3 are unknown (R72, D4). -/
def channelOfId : Nat → Option Channel
  | 0 => some .a
  | 1 => some .b
  | _ => none

/-- flog2 t: for t ≥ 1 the largest k with 2^k ≤ t, and 0 for t = 0 (R11, R121). -/
def flog2 (t : Nat) : Nat := if t = 0 then 0 else Nat.log2 t

/-- requestedBits clamped to at most 16 (R122). -/
def requestedWidth (r : Nat) : Nat := min r resMaxBits

/-- The width SETRES sets: the smaller of the clamped request and the achievable width (R121, R122). -/
def negotiatedWidth (r top : Nat) : Nat := min (requestedWidth r) (flog2 top)

/-- dutyCycle clamped to [0, RES] (R143). -/
def clampDuty (d res : Nat) : Nat := min d res

/-- The compare value of WRITE with RES > 0: rounded down, exact (R144). -/
def scaledDuty (d top res : Nat) : Nat := clampDuty d res * top / res

/-- The product of WRITEF: F * TOP div 2^16, exact, not clamped to TOP (R152, R153). -/
def scaledFraction (f top : Nat) : Nat := f * top / 2 ^ fracBits

/-- The candidate top of a divider, signed, -1 when the product is below the divider (R101). -/
def candidateTop (clkMHz period divider : Nat) : Int := ((clkMHz * period / divider : Nat) : Int) - 1

/-- A candidate the 16-bit counter can hold (R102). -/
def candidateFits (cand : Int) : Bool := decide (0 ≤ cand ∧ cand ≤ (topMax : Int))

end Sys2Proof.Machine
end

