-- ==== Sys2Proof/Machine/Ops.lean ====
section
/-! DEFINITION. The operations the meanings share: the primitives Emit, Finish and raise of R12, the compare register of a channel, the
read-back port (R50), and the refusal of a configuration that breaks R6 (R8). -/

namespace Sys2Proof.Machine

/-- Finish(code, result): STATUS.CODE <- code; RESULT <- result (R12). -/
def State.finish (s : State) (code : StatusCode) (result : Reg) : State :=
  { s with code := code.bits, result := result }

/-- raise <Name>: the Finish with that code and the result 0 of R171. It saves nothing, changes no mode and goes nowhere: the block has no trap
entry and no trap return (R12, R180, R181). -/
def State.raise (s : State) (code : StatusCode) : State := s.finish code 0

/-- Emit(ev): append one event to the timer-port history (R12, R33). -/
def State.emit (s : State) (ev : TimerEvent) : State := { s with history := s.history ++ [ev] }

/-- CMP[c] (R25). -/
def State.cmp (s : State) : Channel → Reg
  | .a => s.cmpA
  | .b => s.cmpB

/-- CMP[c] <- v, the other channel's register unchanged (R25). -/
def State.setCmp (s : State) (c : Channel) (v : Reg) : State :=
  match c with
  | .a => { s with cmpA := v }
  | .b => { s with cmpB := v }

/-- CMP[c] <- v; Emit(SetCompare(c, v)): the one way a compare register is written (R57, R141, R152). -/
def State.drive (s : State) (c : Channel) (v : Reg) : State :=
  (s.setCmp c v).emit (.setCompare c v)

/-- CTRL as the read-back port returns it: {0, OE, CFG, CS} (R26). -/
def State.ctrlWord (s : State) : Reg :=
  ((0 : BitVec 11) ++ s.ctrl.oe ++ s.ctrl.cfg ++ s.ctrl.cs : BitVec (11 + 1 + 1 + 3))

/-- STATUS as the read-back port returns it: {0, CODE} (R30). -/
def State.statusWord (s : State) : Reg := ((0 : BitVec 13) ++ s.code : BitVec (13 + 3))

/-- ReadBack(n): register n, and 0 for number 7 (R22, R32, R50). -/
def State.readBack (s : State) (n : BitVec 3) : Reg :=
  match n.toNat with
  | 0 => s.top
  | 1 => s.res
  | 2 => s.cmpA
  | 3 => s.cmpB
  | 4 => s.ctrlWord
  | 5 => s.statusWord
  | 6 => s.result
  | _ => 0

/-- A register read carried by a byte-serial transport, byte 0 first (R52). -/
def State.readBackBytes (s : State) (n : BitVec 3) : List Byte := bytesOfReg (s.readBack n)

/-- The outcome of an access whose effect is t: a configuration that breaks R6 is refused and has no semantics (R8). -/
def State.inConfig (s : State) (t : State) : Host.Outcome State Fault Refusal :=
  if s.config.wf then .next t else .refused .configurationRefused

end Sys2Proof.Machine
end

