-- ==== Sys2Proof/Machine/DutyMapper.lean ====
section
/-! DEFINITION. WRITE and WRITEF, the duty-cycle mapper (R140 to R157). -/

namespace Sys2Proof.Machine

/-- The effect of WRITE: unknown channel first, then zero resolution, then the scaled duty cycle (R141, R142, R178). -/
def State.writeDuty (s : State) (ch duty : Nat) : State :=
  match channelOfId ch with
  | none => s.raise .unknownChannel
  | some c =>
    if s.res.toNat = 0 then (s.drive c 0).raise .zeroResolution
    else (s.drive c (BitVec.ofNat 16 (scaledDuty duty s.top.toNat s.res.toNat))).finish .ok 0

/-- The effect of WRITEF: unknown channel first, then saturation at the register width, then the raw product (R152, R154, R178). -/
def State.writeFraction (s : State) (ch fix : Nat) : State :=
  match channelOfId ch with
  | none => s.raise .unknownChannel
  | some c =>
    if scaledFraction fix s.top.toNat > topMax then (s.drive c (BitVec.ofNat 16 topMax)).raise .fracSaturated
    else (s.drive c (BitVec.ofNat 16 (scaledFraction fix s.top.toNat))).finish .ok 0

/-- WRITE ch, duty (R141). -/
def execWrite (ch duty : Nat) (s : State) : Host.Outcome State Fault Refusal :=
  s.inConfig (s.writeDuty ch duty)

/-- WRITEF ch, fix (R152). -/
def execWritef (ch fix : Nat) (s : State) : Host.Outcome State Fault Refusal :=
  s.inConfig (s.writeFraction ch fix)

end Sys2Proof.Machine
end

