-- ==== Sys2Proof/Machine/PeriodSolver.lean ====
section
/-! DEFINITION. INIT, the period solver (R100 to R112). -/

namespace Sys2Proof.Machine

/-- The divider search from index i on: the first divider whose candidate fits, with its index (R102, R103). -/
def searchDivider (clkMHz period : Nat) : List Nat → Nat → Option (Nat × Nat)
  | [], _ => none
  | d :: ds, i =>
    if candidateFits (candidateTop clkMHz period d) then some (i, (candidateTop clkMHz period d).toNat)
    else searchDivider clkMHz period ds (i + 1)

/-- The divider search of INIT in table order: the accepted index and the accepted candidate (R102). -/
def findDivider (c : Config) (period : Nat) : Option (Nat × Nat) :=
  searchDivider c.clkMHz period c.div 0

/-- The effect of accepting DIV[i] with candidate `cand`: the registers and one Commit event, counter 0 (R34, R103, R104). -/
def State.commitPeriod (s : State) (i cand : Nat) : State :=
  let boundary : Reg := BitVec.ofNat 16 cand
  let cs : BitVec 3 := BitVec.ofNat 3 (i + 1)
  (({ s with top := boundary, ctrl := { cs := cs, cfg := 1, oe := 1 } } : State).emit
    (.commit s.config.modeWord 0 boundary cs 1)).finish .ok 1

/-- The effect of INIT: commit, or complete rollback with UNREPRESENTABLE_PERIOD (R103, R104, R105). -/
def State.solvePeriod (s : State) (period : Nat) : State :=
  match findDivider s.config period with
  | some (i, cand) => s.commitPeriod i cand
  | none => s.raise .unrepresentablePeriod

/-- INIT period (R103). -/
def execInit (period : Nat) (s : State) : Host.Outcome State Fault Refusal :=
  s.inConfig (s.solvePeriod period)

end Sys2Proof.Machine
end

