-- ==== Sys2Proof/Machine/Resolution.lean ====
section
/-! DEFINITION. SETRES, the resolution negotiator (R120 to R128). -/

namespace Sys2Proof.Machine

/-- The effect of SETRES: RES <- 2^k - 1; Finish(OK, k); no event (R123, R124). -/
def State.negotiate (s : State) (bits : Nat) : State :=
  let k := negotiatedWidth bits s.top.toNat
  ({ s with res := BitVec.ofNat 16 (2 ^ k - 1) } : State).finish .ok (BitVec.ofNat 16 k)

/-- SETRES bits (R123). -/
def execSetres (bits : Nat) (s : State) : Host.Outcome State Fault Refusal :=
  s.inConfig (s.negotiate bits)

end Sys2Proof.Machine
end

