-- ==== Sys2Proof/Machine/Dispatch.lean ====
section
/-! DEFINITION. The one match over the commands: each arm calls its meaning. -/

namespace Sys2Proof.Machine

def exec (i : Instr) (s : State) : Host.Outcome State Fault Refusal :=
  match i with
  | .init period => Sys2Proof.Machine.execInit period s
  | .setres bits => Sys2Proof.Machine.execSetres bits s
  | .write ch duty => Sys2Proof.Machine.execWrite ch duty s
  | .writef ch fix => Sys2Proof.Machine.execWritef ch fix s

end Sys2Proof.Machine
end

