-- ==== Sys2Proof/Machine/Ports.lean ====
section
/-! DEFINITION. What the block does at its ports beside the four commands: an illegal word (R175), a transfer that delivers no command (R53), a
register read (R50), the reset input (R200), and nothing at all (R190). -/

namespace Sys2Proof.Machine

/-- An illegal word: Finish(ILLEGAL_COMMAND, 0), no other register and no event (R77, R175). -/
def execIllegal (s : State) : Host.Outcome State Fault Refusal :=
  s.inConfig (s.raise .illegalCommand)

/-- A transfer that delivers no command: the block does nothing (R53). -/
def execNoCommand (s : State) : Host.Outcome State Fault Refusal := s.inConfig s

/-- A register read: the port answers ReadBack(n); no register and no event changes (R50, R54). -/
def execRead (n : BitVec 3) (s : State) : Host.Outcome State Fault Refusal :=
  s.inConfig { s with replies := s.replies ++ [s.readBack n] }

/-- The reset input: every register to its reset value and the history empty, no event; a command in progress leaves none of its effects (R200, R201).
DESIGN CHOICE (log 7), unsafe: accesses the host still holds stay pending. -/
def execReset (s : State) : Host.Outcome State Fault Refusal :=
  s.inConfig { State.resetOf s.config with pending := s.pending, replies := s.replies }

/-- No access pending: the block keeps its state (R190). DESIGN CHOICE (log 9), safe. -/
def execIdle (s : State) : Host.Outcome State Fault Refusal := s.inConfig s

end Sys2Proof.Machine
end

