-- ==== Sys2Proof/Machine/Accept.lean ====
section
/-! DEFINITION. What the block does with one access of the host (R50, R60): decode a command word and run it, answer a read, take reset. -/

namespace Sys2Proof.Machine

/-- One command word (R76): a command runs; an illegal word has the effect of R175. -/
def performWord (w : CmdWord) (s : State) : Host.Outcome State Fault Refusal :=
  match decodeWord w with
  | .instr i => exec i s
  | .illegal _ => execIllegal s

/-- The bytes of one command write (R52, R53). -/
def performBytes (bs : List Byte) (s : State) : Host.Outcome State Fault Refusal :=
  match wordOfBytes bs with
  | some w => performWord w s
  | none => execNoCommand s

/-- One access of the host. -/
def performAccess (a : HostAccess) (s : State) : Host.Outcome State Fault Refusal :=
  match a with
  | .command w => performWord w s
  | .bytes bs => performBytes bs s
  | .read n => execRead n s
  | .reset _ => execReset s

end Sys2Proof.Machine
end

