-- ==== Sys2Proof/Machine/Step.lean ====
section
/-! DEFINITION. One step: the block takes the oldest pending access and performs it, one command a step (R55, R60, R207). -/

namespace Sys2Proof.Machine

/-- One step. The access taken leaves the list; the block keeps no copy of a command word (R63). DEDUCED: every access completes in one step, so there is no
time and no hang (log 11), unsafe; a read during a command stands before it in the list (log 10), safe. -/
def step (s : State) : Host.Outcome State Fault Refusal :=
  match s.pending with
  | [] => execIdle s
  | a :: rest => performAccess a { s with pending := rest }

/-- The state with one command word at the head of the pending accesses, so that the next step runs it (log 5). -/
def State.withFetchWord (s : State) (nbits w : Nat) : State :=
  { s with pending := .command (BitVec.ofNat 40 (w % 2 ^ nbits)) :: s.pending }

end Sys2Proof.Machine
end

