-- ==== Sys2Proof/Machine/Assembler.lean ====
section
/-! DEFINITION. The assembler syntax (R79), the pseudo-instruction WRITEFR (R80) and the raw word (R79). Host side: nothing in the block reads it.
DEDUCED (log 13), unsafe for claims about text: blanks separate, a semicolon starts a comment, an underscore in a hexadecimal literal groups digits.
DESIGN CHOICE (log 13), unsafe for claims about text: how n of #n and the value of .word40 are written, the case of digits, the form of a decimal literal. -/

namespace Sys2Proof.Machine

/-- A line of assembly. The real operand of WRITEFR is the decimal literal mantissa / 10^scale (R80). -/
inductive AsmLine where
  | command (i : Instr)
  | writefr (ch mantissa scale : Nat)
  | word40 (value : Nat)
  deriving DecidableEq, Repr

/-- A command assembles when its operands fit; an operand out of range is refused, never truncated (R79). -/
def assembleInstr (i : Instr) : Option CmdWord := if i.wf then some (encode i) else none

/-- floor(r * 65536) for r = mantissa / 10^scale (R80). -/
def fixOfDecimal (mantissa scale : Nat) : Nat := mantissa * 65536 / 10 ^ scale

/-- The word of a line; none where the assembler refuses it (R79, R80). -/
def assemble : AsmLine → Option CmdWord
  | .command i => assembleInstr i
  | .writefr ch m k => if m < 65536 * 10 ^ k then assembleInstr (.writef ch (fixOfDecimal m k)) else none
  | .word40 v => if v < 2 ^ 40 then some (BitVec.ofNat 40 v) else none

/-- The value of a digit character in bases up to 16. -/
def digitValue (c : Char) : Option Nat :=
  let n := c.toNat
  if 48 ≤ n ∧ n ≤ 57 then some (n - 48)
  else if 65 ≤ n ∧ n ≤ 70 then some (n - 55)
  else if 97 ≤ n ∧ n ≤ 102 then some (n - 87)
  else none

/-- A digit string in a base, read from `acc` on. -/
def readDigits (base : Nat) : Nat → List Char → Option Nat
  | acc, [] => some acc
  | acc, c :: cs =>
    match digitValue c with
    | some v => if v < base then readDigits base (acc * base + v) cs else none
    | none => none

/-- A digit string with at least one digit. -/
def readNumber (base : Nat) (cs : List Char) : Option Nat :=
  if cs = [] then none else readDigits base 0 cs

/-- An unsigned integer in decimal or with a 0x prefix (R79), grouped with underscores after the prefix (R81). -/
def parseUnsigned : List Char → Option Nat
  | '0' :: 'x' :: ds => readNumber 16 (ds.filter (· ≠ '_'))
  | ds => readNumber 10 ds

/-- A channel operand: A, B or #n for a raw value (R79). DESIGN CHOICE (log 13), unsafe for claims about text: R79 does not say how n is written, and it is
read as the other operands are, decimal or 0x. -/
def parseChannel : List Char → Option Nat
  | ['A'] => some 0
  | ['B'] => some 1
  | '#' :: ds => parseUnsigned ds
  | _ => none

/-- A non-negative decimal literal as (mantissa, scale); a sign is refused (R80). DESIGN CHOICE (log 13), unsafe for claims about text: a point needs digits
on both sides. -/
def parseDecimal (cs : List Char) : Option (Nat × Nat) :=
  match cs.span (· ≠ '.') with
  | (whole, []) => (readNumber 10 whole).map fun m => (m, 0)
  | (whole, _ :: frac) =>
    if whole = [] ∨ frac = [] then none
    else (readNumber 10 (whole ++ frac)).map fun m => (m, frac.length)

/-- The token collected so far, in reverse, if there is one. -/
def flushToken (cur : List Char) : List (List Char) := if cur = [] then [] else [cur.reverse]

/-- The tokens of a line: runs of other characters, and commas. -/
def tokens : List Char → List Char → List (List Char)
  | [], cur => flushToken cur
  | c :: cs, cur =>
    if c = ';' then flushToken cur
    else if c = ' ' ∨ c = '\t' then flushToken cur ++ tokens cs []
    else if c = ',' then flushToken cur ++ [[',']] ++ tokens cs []
    else tokens cs (c :: cur)

/-- A line with one operand (R79). DESIGN CHOICE (log 13), unsafe for claims about text: R79 does not say how the value of .word40 is written (R81 writes it in 0x),
and it is read as the other operands are, decimal or 0x. -/
def parseUnary (name : List Char) (x : List Char) : Option AsmLine :=
  (parseUnsigned x).bind fun v =>
    if name = "INIT".toList then some (.command (.init v))
    else if name = "SETRES".toList then some (.command (.setres v))
    else if name = ".word40".toList then some (.word40 v)
    else none

/-- A line with a channel and an operand. -/
def parseBinary (name : List Char) (ch x : List Char) : Option AsmLine :=
  (parseChannel ch).bind fun c =>
    if name = "WRITE".toList then (parseUnsigned x).map fun v => .command (.write c v)
    else if name = "WRITEF".toList then (parseUnsigned x).map fun v => .command (.writef c v)
    else if name = "WRITEFR".toList then (parseDecimal x).map fun r => .writefr c r.1 r.2
    else none

/-- A line of text as R79 and R80 write it. -/
def parseLine (text : String) : Option AsmLine :=
  match tokens text.toList [] with
  | [name, x] => parseUnary name x
  | [name, ch, [','], x] => parseBinary name ch x
  | _ => none

/-- The word a line of text assembles to. -/
def assembleText (text : String) : Option CmdWord := (parseLine text).bind assemble

end Sys2Proof.Machine
end

