-- ==== Sys2Proof/Machine/TimerPort.lean ====
section
/-! DEFINITION. The levels of the timer port's lines (R33, R200): as the registers mirror them, and as the events of the history leave them.
That the two agree in every reachable state is a statement about the model (R33), not a definition. -/

namespace Sys2Proof.Machine

/-- The lines the block drives (R33). The counter value of a Commit is written once and is no level a register mirrors (R34). -/
structure Lines where
  /-- MODE_WORD, or none when the block does not drive the mode line (R33). -/
  mode : Option Nat
  boundary : Reg
  clockSelect : BitVec 3
  compareA : Reg
  compareB : Reg
  pins : BitVec 1
  deriving DecidableEq, Repr

/-- The lines after reset: boundary 0, no clock, compares 0, pins not requested, mode not driven (R200). -/
def linesAtReset : Lines where
  mode := none
  boundary := 0
  clockSelect := 0
  compareA := 0
  compareB := 0
  pins := 0

/-- The lines after one event (R33, R56, R57). DEDUCED (log 15), unsafe for claims about the lines only. -/
def driveLines (l : Lines) : TimerEvent → Lines
  | .commit mode _ boundary cs pins =>
    { l with mode := some mode, boundary := boundary, clockSelect := cs, pins := pins }
  | .setCompare .a v => { l with compareA := v }
  | .setCompare .b v => { l with compareB := v }

/-- The lines a history of events leaves, from their levels after reset (R33, R200). -/
def replayLines (h : List TimerEvent) : Lines := h.foldl driveLines linesAtReset

/-- The lines as the registers mirror them: the mode line carries MODE_WORD when CFG = 1 and is not driven when CFG = 0 (R33). -/
def State.lines (s : State) : Lines where
  mode := if s.ctrl.cfg = 1 then some s.config.modeWord else none
  boundary := s.top
  clockSelect := s.ctrl.cs
  compareA := s.cmpA
  compareB := s.cmpB
  pins := s.ctrl.oe

end Sys2Proof.Machine
end

