-- ==== Sys2Proof/Safety.lean ====
section
/-! DEFINITION. The terms claims are stated in: the candidate of R101 and the first fit of R102 written out from the spec, the states the
pseudocode of R103, R141 and R152 describes, the invariants of R33 and R39, the runs from reset, and what the next step will take. -/

namespace Sys2Proof.Safety

open Sys2Proof.Machine

/-- cand(i) for the divider d (R101): floor division, then minus one, signed. -/
def candOf (c : Config) (p d : Nat) : Int := ((c.clkHz / 1000000 * p / d : Nat) : Int) - 1

/-- A candidate in the 16-bit range (R102). -/
def Fits (c : Config) (p d : Nat) : Prop := 0 ≤ candOf c p d ∧ candOf c p d ≤ 65535

/-- DIV[i] = d is the first divider, in table order, whose candidate fits (R102). -/
def FirstFit (c : Config) (p i d : Nat) : Prop :=
  c.div[i]? = some d ∧ Fits c p d ∧ ∀ j e, j < i → c.div[j]? = some e → ¬ Fits c p e

/-- The state R103 and R104 describe after INIT accepts DIV[i] with candidate t. -/
def committed (s : State) (i t : Nat) : State :=
  { s with
    top := BitVec.ofNat 16 t
    ctrl := { cs := BitVec.ofNat 3 (i + 1), cfg := 1, oe := 1 }
    code := 0
    result := 1
    history := s.history ++ [.commit s.config.modeWord 0 (BitVec.ofNat 16 t) (BitVec.ofNat 3 (i + 1)) 1] }

/-- The state after a command that writes only STATUS.CODE and RESULT = 0 (R105, R142, R175). -/
def onlyReports (s : State) (code : BitVec 3) : State := { s with code := code, result := 0 }

/-- The state after a duty command that writes v to CMP[c], emits SetCompare(c, v) and finishes with a code (R141, R152). -/
def driven (s : State) (c : Channel) (v : Nat) (code : BitVec 3) : State :=
  match c with
  | .a => { s with cmpA := BitVec.ofNat 16 v, history := s.history ++ [.setCompare .a (BitVec.ofNat 16 v)], code := code, result := 0 }
  | .b => { s with cmpB := BitVec.ofNat 16 v, history := s.history ++ [.setCompare .b (BitVec.ofNat 16 v)], code := code, result := 0 }

/-- The identifier of a channel: CH = 0 is A, CH = 1 is B (R72). -/
def idOf : Channel → Nat
  | .a => 0
  | .b => 1

/-- k is flog2 t (R11, R121). -/
def IsFlog2 (t k : Nat) : Prop := (t = 0 ∧ k = 0) ∨ (2 ^ k ≤ t ∧ t < 2 ^ (k + 1))

/-- An event the port may hold (R33, R34): a Commit carries MODE_WORD, counter 0, a code in 1..N and the pins request. -/
def LegalEvent (c : Config) : TimerEvent → Prop
  | .commit mode counter _ cs pins =>
    mode = c.modeWord ∧ counter = 0 ∧ 1 ≤ cs.toNat ∧ cs.toNat ≤ c.div.length ∧ pins = 1
  | .setCompare _ _ => True

/-- The invariant: items 2 to 5 of R39 (item 1 is the width of TOP), the port events and lines of R33, a configuration that is not refused (R8). -/
structure Inv (s : State) : Prop where
  config_wf : s.config.wf = true
  res_mask : ∃ k, k ≤ 15 ∧ s.res.toNat = 2 ^ k - 1
  unconfigured : s.ctrl.cfg = 0 → s.top = 0 ∧ s.ctrl.cs = 0 ∧ s.ctrl.oe = 0
  configured : s.ctrl.cfg = 1 → 1 ≤ s.ctrl.cs.toNat ∧ s.ctrl.cs.toNat ≤ s.config.div.length ∧ s.ctrl.oe = 1
  code_known : s.code.toNat ≤ 5
  events_legal : ∀ ev ∈ s.history, LegalEvent s.config ev
  lines_mirror : replayLines s.history = s.lines

/-- The states of a run from reset, in any configuration that is not refused, whatever the host does at the ports (R39, R60). -/
inductive Reachable : State → Prop where
  | start (c : Config) (accesses : List HostAccess) (h : c.wf = true) :
      Reachable { State.resetOf c with pending := accesses }
  | step (s t : State) (h : Reachable s) (hs : Machine.step s = .next t) : Reachable t

/-- The word of the command write at the head of the pending accesses, whole or byte-serial (R50, R52). -/
def headWord (s : State) : Option CmdWord :=
  match s.pending with
  | .command w :: _ => some w
  | .bytes bs :: _ => wordOfBytes bs
  | _ => none

/-- The next step runs the command i. -/
def RunsCommand (s : State) (i : Instr) : Prop := ∃ w, headWord s = some w ∧ decodeWord w = .instr i

/-- The next step takes the reset input. -/
def TakesReset (s : State) : Prop := ∃ abandoned rest, s.pending = .reset abandoned :: rest

end Sys2Proof.Safety
end

