-- ==== Sys2Proof/Certificates/Slice0/Obligations.lean ====
section
/-! DEFINITION. The statements for the provers, in the order of the spec's files. Each docstring names the rule it formalises, or says what it rests on. -/

open Sys2Proof Sys2Proof.Machine Sys2Proof.Safety

/-- R81: every example word, from its assembly text and to the command or the illegal verdict it stands for. -/
def Obligations.ExampleWordsAssembleAndDecode : Prop :=
  (assembleText "INIT 20000" = some 0x1000004E20 ∧ decodeWord 0x1000004E20 = .instr (.init 20000)) ∧
  (assembleText "INIT 0" = some 0x1000000000 ∧ decodeWord 0x1000000000 = .instr (.init 0)) ∧
  (assembleText "SETRES 16" = some 0x2000000010 ∧ decodeWord 0x2000000010 = .instr (.setres 16)) ∧
  (assembleText "WRITE A, 16384" = some 0x3000004000 ∧ decodeWord 0x3000004000 = .instr (.write 0 16384)) ∧
  (assembleText "WRITE B, 32767" = some 0x3400007FFF ∧ decodeWord 0x3400007FFF = .instr (.write 1 32767)) ∧
  (assembleText "WRITE #2, 5" = some 0x3800000005 ∧ decodeWord 0x3800000005 = .instr (.write 2 5)) ∧
  (assembleText "WRITEF A, 0x8000" = some 0x4000008000 ∧ decodeWord 0x4000008000 = .instr (.writef 0 0x8000)) ∧
  (assembleText "WRITEF B, 0x18000" = some 0x4400018000 ∧ decodeWord 0x4400018000 = .instr (.writef 1 0x18000)) ∧
  (assembleText ".word40 0x00_0000_0000" = some 0 ∧ decodeWord 0 = .illegal .unassignedOpcode) ∧
  (assembleText ".word40 0x14_0000_0001" = some 0x1400000001 ∧ decodeWord 0x1400000001 = .illegal .channelBits) ∧
  (assembleText ".word40 0x31_0000_0001" = some 0x3100000001 ∧ decodeWord 0x3100000001 = .illegal .reservedBits)

/-- R70, R75, R76: no bit of a well-formed command is lost between the encoder and the decoder. -/
def Obligations.DecodeOfEncodeIsIdentity : Prop :=
  ∀ i : Instr, i.wf = true → decodeWord (encode i) = .instr i

/-- R70, R76: each legal word is the encoding of the one well-formed command it decodes to. -/
def Obligations.EncodeOfDecodeIsIdentity : Prop :=
  ∀ (w : CmdWord) (i : Instr), decodeWord w = .instr i → i.wf = true ∧ encode i = w

/-- R75: each command is exactly its match and mask row, the rows are disjoint, a word no row matches is illegal, and CH of WRITE and WRITEF is 0 for A,
1 for B and unknown at 2 and 3. -/
def Obligations.CommandsAreMatchAndMaskRows : Prop :=
  ∀ w : CmdWord,
    ((∃ p, decodeWord w = .instr (.init p)) ↔ w &&& (0xFF00000000 : CmdWord) = 0x1000000000) ∧
    ((∃ r, decodeWord w = .instr (.setres r)) ↔ w &&& (0xFF00000000 : CmdWord) = 0x2000000000) ∧
    ((∃ ch d, decodeWord w = .instr (.write ch d)) ↔ w &&& (0xF300000000 : CmdWord) = 0x3000000000) ∧
    ((∃ ch f, decodeWord w = .instr (.writef ch f)) ↔ w &&& (0xF300000000 : CmdWord) = 0x4000000000) ∧
    (opcodeTable.filter (fun r => rowAccepts r w)).length ≤ 1 ∧
    ((∃ why, decodeWord w = .illegal why) ↔ ∀ r ∈ opcodeTable, rowAccepts r w = false) ∧
    (∀ ch d, decodeWord w = .instr (.write ch d) ∨ decodeWord w = .instr (.writef ch d) →
      (channelOfId ch = some .a ↔ ch = 0) ∧ (channelOfId ch = some .b ↔ ch = 1) ∧ (channelOfId ch = none ↔ ch = 2 ∨ ch = 3))

/-- The illegal words, by the three grounds of R77, and their whole effect as a step: of the block only STATUS and RESULT change (R175). That the access also
leaves the host's list of pending accesses is the model's choice (DESIGN CHOICE, log 5). The byte-serial form is covered by TransportIsLittleEndian. -/
def Obligations.IllegalWordsReportOnly : Prop :=
  (∀ w : CmdWord, (∃ why, decodeWord w = .illegal why) ↔
    (w.extractLsb' 32 2 ≠ 0 ∨
     ((w.extractLsb' 36 4).toNat = 0 ∨ 5 ≤ (w.extractLsb' 36 4).toNat) ∨
     (((w.extractLsb' 36 4).toNat = 1 ∨ (w.extractLsb' 36 4).toNat = 2) ∧ w.extractLsb' 34 2 ≠ 0))) ∧
  (∀ (s : State) (w : CmdWord) (why : IllegalWord) (rest : List HostAccess), s.config.wf = true →
    s.pending = .command w :: rest → decodeWord w = .illegal why →
    step s = .next { s with pending := rest, code := 5, result := 0 })

/-- R52: little-endian transports, for commands both ways and for register reads; a byte-serial write of a word is a write of the word. That fewer than five
bytes give no word is R53; that more than five give none is the model's inference (DEDUCED, log 8, unsafe). The list the accesses of the last clause
stand in is the model's own (log 5). -/
def Obligations.TransportIsLittleEndian : Prop :=
  (∀ (w : CmdWord) (j : Nat), j < 5 → (bytesOfWord w)[j]? = some (w.extractLsb' (8 * j) 8)) ∧
  (∀ w : CmdWord, wordOfBytes (bytesOfWord w) = some w) ∧
  (∀ (bs : List Byte) (w : CmdWord), wordOfBytes bs = some w → bs = bytesOfWord w) ∧
  (∀ w : CmdWord, (bytesOfWord w).getLast? = some ((BitVec.ofNat 4 (opField w) ++ BitVec.ofNat 2 (chField w) ++ BitVec.ofNat 2 (rsvField w) : BitVec (4 + 2 + 2)))) ∧
  (∀ (s : State) (n : BitVec 3), (s.readBackBytes n).length = 2 ∧
    (s.readBackBytes n)[0]? = some ((s.readBack n).extractLsb' 0 8) ∧ (s.readBackBytes n)[1]? = some ((s.readBack n).extractLsb' 8 8)) ∧
  (∀ (s : State) (w : CmdWord) (rest : List HostAccess),
    step { s with pending := .bytes (bytesOfWord w) :: rest } = step { s with pending := .command w :: rest })

/-- R53: a transfer of fewer than five bytes delivers no command and the block does nothing (the access itself is the host's list, log 5). -/
def Obligations.ShortTransferDoesNothing : Prop :=
  ∀ (s : State) (bs : List Byte) (rest : List HostAccess), s.config.wf = true →
    s.pending = .bytes bs :: rest → bs.length < 5 → step s = .next { s with pending := rest }

/-- When the oldest access is a command write whose word or bytes decode to a command, the step is exec of that command, with the access taken
from the host's list (log 5) and nothing else around it: the block has no program counter (R21, R63). -/
def Obligations.StepRunsTheDecodedCommand : Prop :=
  (∀ (s : State) (w : CmdWord) (rest : List HostAccess) (i : Instr),
    s.pending = .command w :: rest → decodeWord w = .instr i → step s = exec i { s with pending := rest }) ∧
  (∀ (s : State) (bs : List Byte) (rest : List HostAccess) (i : Instr),
    s.pending = .bytes bs :: rest → decodeBytes bs = some (.instr i) → step s = exec i { s with pending := rest })

/-- R32, with R22, R26 and R30: what each register number reads as. -/
def Obligations.ReadBackMap : Prop :=
  ∀ s : State,
    s.readBack 0 = s.top ∧ s.readBack 1 = s.res ∧ s.readBack 2 = s.cmpA ∧ s.readBack 3 = s.cmpB ∧
    (s.readBack 4).toNat = s.ctrl.cs.toNat + 8 * s.ctrl.cfg.toNat + 16 * s.ctrl.oe.toNat ∧
    (s.readBack 5).toNat = s.code.toNat ∧ s.readBack 6 = s.result ∧ s.readBack 7 = 0

/-- R54: a read answers with the register and changes nothing of the block. The list of answers is the model's own (log 6). -/
def Obligations.ReadHasNoSideEffect : Prop :=
  ∀ (s : State) (n : BitVec 3) (rest : List HostAccess), s.config.wf = true → s.pending = .read n :: rest →
    step s = .next { s with pending := rest, replies := s.replies ++ [s.readBack n] }

/-- R60 item 2 and R55: a read after a command answers from the state the command left, a read before it from the state before. The lists of
accesses and answers are the model's own (logs 5 and 6). -/
def Obligations.ReadsSeeCompletedCommandsOnly : Prop :=
  (∀ (s t u : State) (w : CmdWord) (n : BitVec 3) (rest : List HostAccess),
    s.pending = .command w :: .read n :: rest → step s = .next t → step t = .next u →
    u.replies = s.replies ++ [t.readBack n]) ∧
  (∀ (s t u : State) (w : CmdWord) (n : BitVec 3) (rest : List HostAccess),
    s.pending = .read n :: .command w :: rest → step s = .next t → step t = .next u →
    u.replies = s.replies ++ [s.readBack n])

/-- R200 and R201: what the reset input leaves, whatever command it abandons, and the levels of the port lines. -/
def Obligations.ResetLeavesTheResetState : Prop :=
  ∀ (s : State) (abandoned : Option CmdWord) (rest : List HostAccess), s.config.wf = true →
    s.pending = .reset abandoned :: rest →
    ∃ t, step s = .next t ∧ t.config = s.config ∧ t.top = 0 ∧ t.res = 0 ∧ t.cmpA = 0 ∧ t.cmpB = 0 ∧
      t.ctrl.cs = 0 ∧ t.ctrl.cfg = 0 ∧ t.ctrl.oe = 0 ∧ t.code = 0 ∧ t.result = 0 ∧ t.history = [] ∧
      t.lines.boundary = 0 ∧ t.lines.clockSelect = 0 ∧ t.lines.compareA = 0 ∧ t.lines.compareB = 0 ∧
      t.lines.pins = 0 ∧ t.lines.mode = none ∧ Inv t

/-- The invariant holds right after reset (R201: the reset state satisfies every invariant of R39). -/
def Obligations.ResetStateMeetsTheInvariant : Prop := Inv State.reset

/-- R190: with no access pending the block keeps its state. The idle step is the model's choice (log 9). -/
def Obligations.IdleStepKeepsTheState : Prop :=
  ∀ s : State, s.config.wf = true → s.pending = [] → step s = .next s

/-- R8 with the constraints of R6: a configuration passes the check exactly when it breaks none. That the refusal stands at each access and each command, under
the name configurationRefused, is the model's choice (DESIGN CHOICE, log 4): R8 does not say where it stands. -/
def Obligations.BrokenConfigurationIsRefused : Prop :=
  (∀ c : Config, c.wf = true ↔
    (0 < c.clkHz ∧ 1000000 ∣ c.clkHz ∧ 1 ≤ c.div.length ∧ c.div.length ≤ 7 ∧ (∀ d ∈ c.div, 1 ≤ d) ∧
     ∀ (i j d e : Nat), i < j → c.div[i]? = some d → c.div[j]? = some e → d < e)) ∧
  (∀ s : State, s.config.wf = false →
    step s = .refused .configurationRefused ∧ ∀ i : Instr, exec i s = .refused .configurationRefused)

/-- R101: the candidate is exact and signed, at least -1, and -1 exactly when the product is below the divider. -/
def Obligations.CandidateIsExactAndSigned : Prop :=
  ∀ (c : Config) (p d : Nat), 1 ≤ d →
    candidateTop c.clkMHz p d = ((c.clkHz / 1000000 * p / d : Nat) : Int) - 1 ∧
    -1 ≤ candidateTop c.clkMHz p d ∧
    (candidateTop c.clkMHz p d = -1 ↔ c.clkHz / 1000000 * p < d)

/-- R103, R104, R105: INIT completes; the first divider that fits is committed, and where none fits only STATUS and RESULT change. -/
def Obligations.InitFollowsItsPseudocode : Prop :=
  ∀ (s : State) (p : Nat), s.config.wf = true →
    (∀ i d t : Nat, FirstFit s.config p i d → (t : Int) = candOf s.config p d →
      exec (.init p) s = .next (committed s i t)) ∧
    ((∀ d ∈ s.config.div, ¬ Fits s.config p d) → exec (.init p) s = .next (onlyReports s 1))

/-- R110: a successful INIT chose the smallest divider whose candidate fits. -/
def Obligations.InitChoosesTheFinestDivider : Prop :=
  ∀ (s t : State) (p : Nat), exec (.init p) s = .next t → t.result = 1 →
    ∃ i d, FirstFit s.config p i d ∧ t.ctrl.cs.toNat = i + 1 ∧ (t.top.toNat : Int) = candOf s.config p d ∧
      ∀ e ∈ s.config.div, Fits s.config p e → d ≤ e

/-- R111: a period the largest divider represents is accepted; the converse fails at p = 1 in the reference configuration. -/
def Obligations.InitSucceedsWhereTheLargestDividerFits : Prop :=
  (∀ (s : State) (p d : Nat), s.config.wf = true → s.config.div.getLast? = some d → Fits s.config p d →
    ∃ t, exec (.init p) s = .next t ∧ t.result = 1 ∧ t.code = 0 ∧ t.top.toNat ≤ 65535) ∧
  (∀ s : State, s.config.clkHz = 16000000 → s.config.div = [1, 8, 64, 256, 1024] →
    candOf s.config 1 1024 = -1 ∧ exec (.init 1) s = .next (committed s 0 15))

/-- R108: the selection bands of the reference configuration, over every 32-bit period. -/
def Obligations.ReferenceSelectionBands : Prop :=
  ∀ (s : State) (p : Nat), s.config.clkHz = 16000000 → s.config.div = [1, 8, 64, 256, 1024] → p < 2 ^ 32 →
    (p = 0 → exec (.init p) s = .next (onlyReports s 1)) ∧
    (1 ≤ p ∧ p ≤ 4096 → exec (.init p) s = .next (committed s 0 (16 * p - 1)) ∧ 15 ≤ 16 * p - 1 ∧ 16 * p - 1 ≤ 65535) ∧
    (4097 ≤ p ∧ p ≤ 32768 → exec (.init p) s = .next (committed s 1 (2 * p - 1)) ∧ 8193 ≤ 2 * p - 1 ∧ 2 * p - 1 ≤ 65535) ∧
    (32769 ≤ p ∧ p ≤ 262147 → exec (.init p) s = .next (committed s 2 (p / 4 - 1)) ∧ 8191 ≤ p / 4 - 1 ∧ p / 4 - 1 ≤ 65535) ∧
    (262148 ≤ p ∧ p ≤ 1048591 → exec (.init p) s = .next (committed s 3 (p / 16 - 1)) ∧ 16383 ≤ p / 16 - 1 ∧ p / 16 - 1 ≤ 65535) ∧
    (1048592 ≤ p ∧ p ≤ 4194367 → exec (.init p) s = .next (committed s 4 (p / 64 - 1)) ∧ 16383 ≤ p / 64 - 1 ∧ p / 64 - 1 ≤ 65535) ∧
    (4194368 ≤ p → exec (.init p) s = .next (onlyReports s 1))

/-- R109: with T = (TOP + 1) * DIV[i] / CLK_MHZ microseconds, p - DIV[i] / CLK_MHZ < T and T ≤ p. -/
def Obligations.RealisedPeriodIsWithinOneTick : Prop :=
  ∀ (s t : State) (p : Nat), exec (.init p) s = .next t → t.result = 1 →
    ∃ i d : Nat, s.config.div[i]? = some d ∧ t.ctrl.cs.toNat = i + 1 ∧
      (p : ℚ) - (d : ℚ) / (s.config.clkMHz : ℚ) < ((t.top.toNat : ℚ) + 1) * (d : ℚ) / (s.config.clkMHz : ℚ) ∧
      ((t.top.toNat : ℚ) + 1) * (d : ℚ) / (s.config.clkMHz : ℚ) ≤ (p : ℚ)

/-- R107 items 1 to 3: the zero period, a product below DIV[0], and a period too long for the largest divider fail. -/
def Obligations.DegenerateAndLongPeriodsFail : Prop :=
  ∀ (s : State) (p first last : Nat), s.config.wf = true →
    s.config.div.head? = some first → s.config.div.getLast? = some last →
    (p = 0 ∨ s.config.clkMHz * p < first ∨ 65535 < candOf s.config p last) →
    exec (.init p) s = .next (onlyReports s 1)

/-- R107 item 7: a jump from a candidate above 65535 to a negative one needs DIV[i+1] > 65537 * DIV[i]; in a table without such a ratio INIT succeeds
exactly when the first candidate is not negative and the last is at most 65535. -/
def Obligations.GapsNeedARatioAbove65537 : Prop :=
  ∀ (s : State) (p : Nat), s.config.wf = true →
    (∀ i d e, s.config.div[i]? = some d → s.config.div[i + 1]? = some e →
      65535 < candOf s.config p d → candOf s.config p e < 0 → 65537 * d < e) ∧
    (∀ first last, s.config.div.head? = some first → s.config.div.getLast? = some last →
      (∀ i d e, s.config.div[i]? = some d → s.config.div[i + 1]? = some e → e ≤ 65537 * d) →
      ((∃ t, exec (.init p) s = .next t ∧ t.result = 1) ↔ 0 ≤ candOf s.config p first ∧ candOf s.config p last ≤ 65535))

/-- R123: SETRES completes with RES = 2^k - 1 and RESULT = k, k = min(min(r, 16), flog2 TOP), and nothing else changes. -/
def Obligations.SetresFollowsItsPseudocode : Prop :=
  ∀ (s : State) (r : Nat), s.config.wf = true →
    ∃ ach, IsFlog2 s.top.toNat ach ∧
      exec (.setres r) s = .next { s with
        res := BitVec.ofNat 16 (2 ^ min (min r 16) ach - 1), code := 0, result := BitVec.ofNat 16 (min (min r 16) ach) }

/-- R40, R122, R124, R127: the width set is never above the request or the achievable width, RES keeps its form and its bound by TOP right after SETRES,
RES = 0 exactly for the causes of R124, and every request of 16 or more acts as 16. -/
def Obligations.SetresRespectsRequestAndTop : Prop :=
  (∀ (s t : State) (r ach : Nat), exec (.setres r) s = .next t → IsFlog2 s.top.toNat ach →
    t.result.toNat ≤ r ∧ t.result.toNat ≤ ach ∧ t.result.toNat ≤ 15 ∧
    t.res.toNat = 2 ^ t.result.toNat - 1 ∧ t.res.toNat ≤ 2 ^ ach - 1 ∧ t.res.toNat ≤ t.top.toNat ∧
    (t.res = 0 ↔ r = 0 ∨ s.top.toNat = 0 ∨ s.top.toNat = 1)) ∧
  (∀ (s : State) (r : Nat), 16 ≤ r → exec (.setres r) s = exec (.setres 16) s)

/-- R141: WRITE completes in all its three cases, with exactly the effects of the pseudocode. -/
def Obligations.WriteFollowsItsPseudocode : Prop :=
  ∀ (s : State) (ch d : Nat), s.config.wf = true →
    (2 ≤ ch → exec (.write ch d) s = .next (onlyReports s 2)) ∧
    (∀ c, ch = idOf c → s.res.toNat = 0 → exec (.write ch d) s = .next (driven s c 0 3)) ∧
    (∀ c, ch = idOf c → s.res.toNat ≠ 0 →
      exec (.write ch d) s = .next (driven s c (min d s.res.toNat * s.top.toNat / s.res.toNat) 0))

/-- R146: range, monotonicity, boundaries, over-range clamp and TOP = 0 of the value WRITE writes while RES > 0. -/
def Obligations.WriteRangeMonotonyAndBoundaries : Prop :=
  ∀ (s : State) (c : Channel), s.config.wf = true → 0 < s.res.toNat →
    (∀ (d : Nat) (t : State), exec (.write (idOf c) d) s = .next t → (t.cmp c).toNat ≤ s.top.toNat) ∧
    (∀ (d₁ d₂ : Nat) (t₁ t₂ : State), d₁ < d₂ → exec (.write (idOf c) d₁) s = .next t₁ → exec (.write (idOf c) d₂) s = .next t₂ →
      (t₁.cmp c).toNat ≤ (t₂.cmp c).toNat) ∧
    (∃ t, exec (.write (idOf c) s.res.toNat) s = .next t ∧ t.cmp c = s.top) ∧
    (∃ t, exec (.write (idOf c) 0) s = .next t ∧ t.cmp c = 0) ∧
    (∀ d, s.res.toNat ≤ d → exec (.write (idOf c) d) s = exec (.write (idOf c) s.res.toNat) s) ∧
    (s.top = 0 → ∀ d, ∃ t, exec (.write (idOf c) d) s = .next t ∧ t.cmp c = 0)

/-- R145: two blocks with equal TOP and RES answer a WRITE with the same value, code, RESULT and event, whatever else they hold. -/
def Obligations.WriteHasNoMemory : Prop :=
  ∀ (s₁ s₂ t₁ t₂ : State) (c : Channel) (d : Nat), s₁.top = s₂.top → s₁.res = s₂.res →
    exec (.write (idOf c) d) s₁ = .next t₁ → exec (.write (idOf c) d) s₂ = .next t₂ →
    t₁.cmp c = t₂.cmp c ∧ t₁.code = t₂.code ∧ t₁.result = t₂.result ∧
    t₁.history = s₁.history ++ [.setCompare c (t₁.cmp c)] ∧ t₂.history = s₂.history ++ [.setCompare c (t₁.cmp c)]

/-- R174: every WRITE to a known channel while RES = 0 maps to 0 and reports ZERO_RESOLUTION; WRITEF never reports it. -/
def Obligations.ZeroResolutionMapsToZero : Prop :=
  (∀ (s : State) (c : Channel) (d : Nat), s.config.wf = true → s.res = 0 →
    exec (.write (idOf c) d) s = .next (driven s c 0 3)) ∧
  (∀ (s t : State) (ch f : Nat), exec (.writef ch f) s = .next t → t.code ≠ 3)

/-- R173: a duty write to an unknown channel changes STATUS and RESULT only, for both commands and whatever RES and TOP are. -/
def Obligations.UnknownChannelIsSignalledNoOp : Prop :=
  ∀ (s : State) (ch x : Nat), s.config.wf = true → 2 ≤ ch →
    exec (.write ch x) s = .next (onlyReports s 2) ∧ exec (.writef ch x) s = .next (onlyReports s 2)

/-- R152: WRITEF completes in all its three cases, with exactly the effects of the pseudocode. -/
def Obligations.WritefFollowsItsPseudocode : Prop :=
  ∀ (s : State) (ch f : Nat), s.config.wf = true →
    (2 ≤ ch → exec (.writef ch f) s = .next (onlyReports s 2)) ∧
    (∀ c, ch = idOf c → 65535 < f * s.top.toNat / 2 ^ 16 → exec (.writef ch f) s = .next (driven s c 65535 4)) ∧
    (∀ c, ch = idOf c → f * s.top.toNat / 2 ^ 16 ≤ 65535 →
      exec (.writef ch f) s = .next (driven s c (f * s.top.toNat / 2 ^ 16) 0))

/-- R154: saturation happens exactly when F * TOP ≥ 2^32, from the named operands on at the named TOPs, never for TOP ≤ 1 (F is 32 bits), and a value
between TOP + 1 and 65535 is written as it is. -/
def Obligations.WritefSaturatesExactlyAtTheRegisterWidth : Prop :=
  ∀ (s : State) (c : Channel) (f : Nat), s.config.wf = true → f < 2 ^ 32 →
    ∃ t, exec (.writef (idOf c) f) s = .next t ∧
      (t.code = 4 ↔ 2 ^ 32 ≤ f * s.top.toNat) ∧
      (2 ^ 32 ≤ f * s.top.toNat → t = driven s c 65535 4) ∧
      (s.top.toNat = 65535 → (t.code = 4 ↔ 0x10002 ≤ f)) ∧
      (s.top.toNat = 39999 → (t.code = 4 ↔ 0x1A371 ≤ f)) ∧
      (s.top.toNat = 15999 → (t.code = 4 ↔ 0x418A5 ≤ f)) ∧
      (s.top.toNat ≤ 1 → t.code = 0) ∧
      (∀ v, v = f * s.top.toNat / 2 ^ 16 → s.top.toNat < v → v ≤ 65535 → (t.cmp c).toNat = v ∧ t.code = 0)

/-- R153: WRITEF does not read RES, does not clamp to TOP, rounds down, and never reports ZERO_RESOLUTION. -/
def Obligations.WritefIgnoresTheResolution : Prop :=
  ∀ (s t : State) (ch f : Nat) (r : Reg), exec (.writef ch f) s = .next t →
    exec (.writef ch f) { s with res := r } = .next { t with res := r } ∧ t.code ≠ 3 ∧
    (∀ c, ch = idOf c → f * s.top.toNat / 2 ^ 16 ≤ 65535 → (t.cmp c).toNat = f * s.top.toNat / 2 ^ 16 ∧ t.code = 0)

/-- R156 item 7: the fraction of WRITEF equals the duty of WRITE exactly only at zero and at full scale, and there both write the same value, 0 or TOP. -/
def Obligations.WriteAndWritefAgreeExactlyAtTheEnds : Prop :=
  ∀ (s : State) (c : Channel) (k f d : Nat), s.config.wf = true → 1 ≤ k → k ≤ 15 → s.res.toNat = 2 ^ k - 1 →
    d ≤ s.res.toNat → f * s.res.toNat = d * 2 ^ 16 →
    ∃ t u, exec (.writef (idOf c) f) s = .next t ∧ exec (.write (idOf c) d) s = .next u ∧ t.cmp c = u.cmp c ∧
      ((f = 0 ∧ d = 0 ∧ t.cmp c = 0) ∨ (f = 2 ^ 16 ∧ d = s.res.toNat ∧ t.cmp c = s.top))

/-- R178: an illegal encoding comes before everything, an unknown channel before zero resolution and saturation, and each command has only its own errors. That
the access of an illegal word leaves the host's list, which the first clause fixes, is the model's choice (DESIGN CHOICE, log 5). -/
def Obligations.ErrorPriority : Prop :=
  (∀ (s t : State) (w : CmdWord) (rest : List HostAccess), s.pending = .command w :: rest → rsvField w ≠ 0 →
    step s = .next t → t = onlyReports { s with pending := rest } 5) ∧
  (∀ (s t : State) (w : CmdWord) (rest : List HostAccess), s.pending = .command w :: rest → step s = .next t →
    (t.code = 5 ↔ ∃ why, decodeWord w = .illegal why)) ∧
  (∀ (s t : State) (ch d : Nat), exec (.write ch d) s = .next t → (t.code = 2 ↔ 2 ≤ ch) ∧ (t.code = 3 ↔ ch < 2 ∧ s.res = 0) ∧
    (2 ≤ ch → t = onlyReports s 2) ∧ (t.code = 0 ∨ t.code = 2 ∨ t.code = 3)) ∧
  (∀ (s t : State) (ch f : Nat), exec (.writef ch f) s = .next t → (t.code = 2 ↔ 2 ≤ ch) ∧
    (t.code = 4 ↔ ch < 2 ∧ 2 ^ 32 ≤ f * s.top.toNat) ∧ (2 ≤ ch → t = onlyReports s 2) ∧ (t.code = 0 ∨ t.code = 2 ∨ t.code = 4)) ∧
  (∀ (s t : State) (p : Nat), exec (.init p) s = .next t → t.code = 0 ∨ t.code = 1) ∧
  (∀ (s t : State) (r : Nat), exec (.setres r) s = .next t → t.code = 0)

/-- R31: RESULT after each command and after an illegal word. -/
def Obligations.ResultOfEachCommand : Prop :=
  (∀ (s t : State) (p : Nat), exec (.init p) s = .next t → (t.code = 0 ∧ t.result = 1) ∨ (t.code ≠ 0 ∧ t.result = 0)) ∧
  (∀ (s t : State) (r : Nat), exec (.setres r) s = .next t → t.result.toNat ≤ 15 ∧ t.res.toNat + 1 = 2 ^ t.result.toNat) ∧
  (∀ (s t : State) (ch x : Nat), exec (.write ch x) s = .next t ∨ exec (.writef ch x) s = .next t → t.result = 0) ∧
  (∀ (s t : State) (w : CmdWord) (why : IllegalWord), headWord s = some w → decodeWord w = .illegal why →
    step s = .next t → t.result = 0)

/-- R35: no command's behaviour depends on STATUS or RESULT, an illegal word's neither. -/
def Obligations.OutcomeRegistersAreNeverRead : Prop :=
  (∀ (i : Instr) (s : State) (code : BitVec 3) (r : Reg), exec i { s with code := code, result := r } = exec i s) ∧
  (∀ (s : State) (w : CmdWord) (code : BitVec 3) (r : Reg), headWord s = some w →
    step { s with code := code, result := r } = step s)

/-- R104, R105, the frame of INIT: RES, CMPA, CMPB stay, and on failure TOP, CTRL and the history too; on success one Commit is appended. -/
def Obligations.InitFrame : Prop :=
  ∀ (s t : State) (p : Nat), exec (.init p) s = .next t →
    t.config = s.config ∧ t.res = s.res ∧ t.cmpA = s.cmpA ∧ t.cmpB = s.cmpB ∧ t.pending = s.pending ∧ t.replies = s.replies ∧
    (t.code = 0 → t.history = s.history ++ [.commit s.config.modeWord 0 t.top t.ctrl.cs 1] ∧ t.ctrl.cfg = 1 ∧ t.ctrl.oe = 1) ∧
    (t.code ≠ 0 → t.top = s.top ∧ t.ctrl = s.ctrl ∧ t.history = s.history)

/-- R124, the frame of SETRES: only RES, STATUS and RESULT may change, and no event is emitted. -/
def Obligations.SetresFrame : Prop :=
  ∀ (s t : State) (r : Nat), exec (.setres r) s = .next t →
    t.config = s.config ∧ t.top = s.top ∧ t.cmpA = s.cmpA ∧ t.cmpB = s.cmpB ∧ t.ctrl = s.ctrl ∧
    t.history = s.history ∧ t.pending = s.pending ∧ t.replies = s.replies

/-- R144, R155, the frame of WRITE and WRITEF: TOP, RES, CTRL and the other channel's compare register stay, one SetCompare of the new value is
appended; an unknown channel changes no compare register and appends nothing. -/
def Obligations.DutyWriteFrame : Prop :=
  ∀ (s t : State) (ch x : Nat), exec (.write ch x) s = .next t ∨ exec (.writef ch x) s = .next t →
    t.config = s.config ∧ t.top = s.top ∧ t.res = s.res ∧ t.ctrl = s.ctrl ∧ t.pending = s.pending ∧ t.replies = s.replies ∧
    (ch = 0 → t.cmpB = s.cmpB ∧ t.history = s.history ++ [.setCompare .a t.cmpA]) ∧
    (ch = 1 → t.cmpA = s.cmpA ∧ t.history = s.history ++ [.setCompare .b t.cmpB]) ∧
    (2 ≤ ch → t.cmpA = s.cmpA ∧ t.cmpB = s.cmpB ∧ t.history = s.history)

/-- R54: every command repeated at once leaves the same state and emits the same events again. -/
def Obligations.RepeatedCommandLeavesTheSameState : Prop :=
  ∀ (i : Instr) (s t : State), exec i s = .next t →
    ∃ evs, t.history = s.history ++ evs ∧ exec i t = .next { t with history := t.history ++ evs }

/-- R170 and R207: in a configuration that is not refused every step completes, takes exactly one access (DESIGN CHOICE,
log 5), and leaves the configuration as it is (R6, log 1). That accesses still held stay pending across a reset is the model's choice (DESIGN CHOICE, log 7, unsafe),
that an empty list is a step that keeps the state is log 9 (DESIGN CHOICE), that a byte transfer of more than five bytes does nothing is log 8 (DEDUCED, unsafe),
that a step never hangs is log 11 (DEDUCED, unsafe). -/
def Obligations.EveryStepCompletes : Prop :=
  ∀ s : State, s.config.wf = true → ∃ t, step s = .next t ∧ t.pending = s.pending.tail ∧ t.config = s.config

/-- R22, R23, R24, R25, R26, the "written by" column: which access can change which register, and that CFG and OE are cleared by reset only (R203).
For a byte transfer of more than five bytes, which changes none, it rests on log 8 (DEDUCED, unsafe). -/
def Obligations.OnlyTheNamedCommandsWriteARegister : Prop :=
  ∀ s t : State, step s = .next t →
    (t.top ≠ s.top → TakesReset s ∨ ∃ p, RunsCommand s (.init p) ∧ t.result = 1) ∧
    (t.ctrl ≠ s.ctrl → TakesReset s ∨ ∃ p, RunsCommand s (.init p) ∧ t.result = 1) ∧
    (t.res ≠ s.res → TakesReset s ∨ ∃ r, RunsCommand s (.setres r)) ∧
    (t.cmpA ≠ s.cmpA → TakesReset s ∨ ∃ x, RunsCommand s (.write 0 x) ∨ RunsCommand s (.writef 0 x)) ∧
    (t.cmpB ≠ s.cmpB → TakesReset s ∨ ∃ x, RunsCommand s (.write 1 x) ∨ RunsCommand s (.writef 1 x)) ∧
    (t.code ≠ s.code ∨ t.result ≠ s.result → TakesReset s ∨ headWord s ≠ none) ∧
    ((s.ctrl.cfg = 1 ∧ t.ctrl.cfg = 0) ∨ (s.ctrl.oe = 1 ∧ t.ctrl.oe = 0) → TakesReset s)

/-- R33, R56, R57: the history only grows but at reset, by at most one event a step; a Commit comes from a successful INIT and a SetCompare from a
duty write to that channel. For a byte transfer of more than five bytes, which emits none, it rests on log 8 (DEDUCED, unsafe). -/
def Obligations.HistoryGrowsByTheCommandsEvent : Prop :=
  ∀ s t : State, step s = .next t → ¬ TakesReset s →
    t.history = s.history ∨
    (∃ p, RunsCommand s (.init p) ∧ t.code = 0 ∧ t.history = s.history ++ [.commit s.config.modeWord 0 t.top t.ctrl.cs 1]) ∨
    (∃ c x, (RunsCommand s (.write (idOf c) x) ∨ RunsCommand s (.writef (idOf c) x)) ∧
      t.history = s.history ++ [.setCompare c (t.cmp c)])

/-- Every step keeps the invariant, from every state that meets it (R33, R39). Its clause about the port lines rests on the model's reading of the events
(DEDUCED, log 15). -/
def Obligations.StepKeepsTheInvariant : Prop :=
  ∀ s t : State, Inv s → step s = .next t → Inv t

/-- R39: its six items in every state reachable from reset, in every configuration and for every behaviour of the host. -/
def Obligations.ReachableStatesMeetTheSixInvariants : Prop :=
  ∀ s : State, Reachable s →
    s.top.toNat ≤ 65535 ∧
    (∃ k, k ≤ 15 ∧ s.res.toNat = 2 ^ k - 1) ∧
    (s.ctrl.cfg = 0 → s.top = 0 ∧ s.ctrl.cs = 0 ∧ s.ctrl.oe = 0) ∧
    (s.ctrl.cfg = 1 → 1 ≤ s.ctrl.cs.toNat ∧ s.ctrl.cs.toNat ≤ s.config.div.length ∧ s.ctrl.oe = 1) ∧
    s.code.toNat ≤ 5 ∧
    (∀ (c : Channel) (d : Nat) (t : State), RunsCommand s (.write (idOf c) d) → step s = .next t →
      (t.cmp c).toNat ≤ t.top.toNat)

/-- R33: in every reachable state the levels the events have left on the port equal the registers that mirror them, the mode line included. What an event does
to the lines (driveLines) and the levels they start from (linesAtReset) are the model's reading (DEDUCED, log 15). -/
def Obligations.PortLinesMirrorTheRegisters : Prop :=
  ∀ s : State, Reachable s →
    replayLines s.history =
      { mode := if s.ctrl.cfg = 1 then some s.config.modeWord else none, boundary := s.top, clockSelect := s.ctrl.cs,
        compareA := s.cmpA, compareB := s.cmpB, pins := s.ctrl.oe }

/-- R40's example and R209: at TOP = 39999 a SETRES 16 gives RES = 32767; an INIT 1 then sets TOP = 15 and leaves RES and both compare registers stale. -/
def Obligations.ReinitLeavesResolutionAndComparesStale : Prop :=
  ∀ s : State, s.config.clkHz = 16000000 → s.config.div = [1, 8, 64, 256, 1024] → s.top = 39999 →
    ∃ t u, exec (.setres 16) s = .next t ∧ t.res = 32767 ∧ exec (.init 1) t = .next u ∧
      u.top = 15 ∧ u.res = 32767 ∧ u.cmpA = s.cmpA ∧ u.cmpB = s.cmpB

/-- R79: a command assembles exactly when its operands fit, to the word that decodes back to it; a raw word is any 40-bit value. -/
def Obligations.AssemblerRefusesOperandsOutOfRange : Prop :=
  (∀ (i : Instr) (w : CmdWord), assemble (.command i) = some w ↔
    (channelOf i < 4 ∧ operandOf i < 2 ^ 32 ∧ decodeWord w = .instr i)) ∧
  (∀ (v : Nat) (w : CmdWord), assemble (.word40 v) = some w ↔ v < 2 ^ 40 ∧ w.toNat = v)

/-- R80: WRITEFR ch, r is WRITEF ch, floor(r * 65536) for r = m / 10^k below 65536, refused from 65536 on and for a negative literal, with the
rule's two examples. -/
def Obligations.WritefrRoundsTowardZero : Prop :=
  (∀ (ch m k : Nat) (w : CmdWord), assemble (.writefr ch m k) = some w ↔
    ((m : ℚ) / 10 ^ k < 65536 ∧ ch < 4 ∧ decodeWord w = .instr (.writef ch ⌊(m : ℚ) / 10 ^ k * 65536⌋₊))) ∧
  assembleText "WRITEFR A, 0.5" = assembleText "WRITEF A, 0x8000" ∧ (assembleText "WRITEF A, 0x8000").isSome = true ∧
  assembleText "WRITEFR A, 1.0" = assembleText "WRITEF A, 0x10000" ∧ (assembleText "WRITEF A, 0x10000").isSome = true ∧
  assembleText "WRITEFR A, -0.5" = none ∧ assembleText "WRITEFR A, 65536" = none
end

