-- ==== Sys2Proof/Laws/Decode.lean ====
section
/-! SUPPORT. The fields of a command word as quotients and remainders, their ranges, the fields of a packed word, and what a
configuration that is not refused gives. -/

namespace Sys2Proof

theorem opField_eq (w : CmdWord) : opField w = w.toNat / 2 ^ 36 := by
  have := w.isLt
  simp only [opField, BitVec.extractLsb'_toNat, Nat.shiftRight_eq_div_pow]
  omega

theorem chField_eq (w : CmdWord) : chField w = w.toNat / 2 ^ 34 % 4 := by
  simp only [chField, BitVec.extractLsb'_toNat, Nat.shiftRight_eq_div_pow]

theorem rsvField_eq (w : CmdWord) : rsvField w = w.toNat / 2 ^ 32 % 4 := by
  simp only [rsvField, BitVec.extractLsb'_toNat, Nat.shiftRight_eq_div_pow]

theorem opndField_eq (w : CmdWord) : opndField w = w.toNat % 2 ^ 32 := by
  simp only [opndField, BitVec.extractLsb'_toNat, Nat.shiftRight_eq_div_pow]
  omega

theorem chField_lt (w : CmdWord) : chField w < 4 := by
  rw [chField_eq]; omega

theorem opndField_lt (w : CmdWord) : opndField w < 2 ^ 32 := by
  rw [opndField_eq]; omega

/-- A word is the sum of its four fields (R70). -/
theorem word_is_its_fields (w : CmdWord) :
    w.toNat = opField w * 2 ^ 36 + chField w * 2 ^ 34 + rsvField w * 2 ^ 32 + opndField w := by
  rw [opField_eq, chField_eq, rsvField_eq, opndField_eq]
  omega

theorem packWord_fields_eq (w : CmdWord) : packWord (opField w) (chField w) (rsvField w) (opndField w) = w := by
  apply BitVec.eq_of_toNat_eq
  rw [packWord, BitVec.toNat_ofNat, ← word_is_its_fields w, Nat.mod_eq_of_lt w.isLt]

section packed
variable {op ch rsv opnd : Nat} (hop : op < 16) (hch : ch < 4) (hrsv : rsv < 4) (hopnd : opnd < 2 ^ 32)
include hop hch hrsv hopnd

theorem packWord_toNat : (packWord op ch rsv opnd).toNat = op * 2 ^ 36 + ch * 2 ^ 34 + rsv * 2 ^ 32 + opnd := by
  rw [packWord, BitVec.toNat_ofNat]
  omega

theorem opField_packWord : opField (packWord op ch rsv opnd) = op := by
  rw [opField_eq, packWord_toNat hop hch hrsv hopnd]; omega

theorem chField_packWord : chField (packWord op ch rsv opnd) = ch := by
  rw [chField_eq, packWord_toNat hop hch hrsv hopnd]; omega

theorem rsvField_packWord : rsvField (packWord op ch rsv opnd) = rsv := by
  rw [rsvField_eq, packWord_toNat hop hch hrsv hopnd]; omega

theorem opndField_packWord : opndField (packWord op ch rsv opnd) = opnd := by
  rw [opndField_eq, packWord_toNat hop hch hrsv hopnd]; omega

end packed

/-- The bits the mask of WRITE and WRITEF keeps: OP and RSV (R75). -/
theorem mask_op_rsv (w : CmdWord) : (w &&& (0xF300000000 : CmdWord)).toNat = opField w * 2 ^ 36 + rsvField w * 2 ^ 32 := by
  have h : w &&& (0xF300000000 : CmdWord) =
      BitVec.cast (by rfl) (w.extractLsb' 36 4 ++ 0#2 ++ w.extractLsb' 32 2 ++ 0#32) := by
    apply BitVec.eq_of_getLsbD_eq
    intro i hi
    simp only [BitVec.getLsbD_and, BitVec.getLsbD_cast, BitVec.getLsbD_append, BitVec.getLsbD_extractLsb']
    interval_cases i <;> simp [BitVec.getLsbD_eq_getElem]
  rw [h]
  simp only [BitVec.toNat_cast, BitVec.toNat_append, opField, rsvField]
  have h1 := (w.extractLsb' 36 4).isLt
  have h2 := (w.extractLsb' 32 2).isLt
  generalize (w.extractLsb' 36 4).toNat = a at *
  generalize (w.extractLsb' 32 2).toNat = b at *
  rw [← Nat.shiftLeft_add_eq_or_of_lt (by decide), ← Nat.shiftLeft_add_eq_or_of_lt h2, ← Nat.shiftLeft_add_eq_or_of_lt (by decide)]
  simp [Nat.shiftLeft_eq]
  omega

/-- The bits the mask of INIT and SETRES keeps: OP, CH and RSV (R75). -/
theorem mask_op_ch_rsv (w : CmdWord) :
    (w &&& (0xFF00000000 : CmdWord)).toNat = opField w * 2 ^ 36 + chField w * 2 ^ 34 + rsvField w * 2 ^ 32 := by
  have h : w &&& (0xFF00000000 : CmdWord) =
      BitVec.cast (by rfl) (w.extractLsb' 36 4 ++ w.extractLsb' 34 2 ++ w.extractLsb' 32 2 ++ 0#32) := by
    apply BitVec.eq_of_getLsbD_eq
    intro i hi
    simp only [BitVec.getLsbD_and, BitVec.getLsbD_cast, BitVec.getLsbD_append, BitVec.getLsbD_extractLsb']
    interval_cases i <;> simp [BitVec.getLsbD_eq_getElem]
  rw [h]
  simp only [BitVec.toNat_cast, BitVec.toNat_append, opField, rsvField, chField]
  have h1 := (w.extractLsb' 36 4).isLt
  have h2 := (w.extractLsb' 32 2).isLt
  have h3 := (w.extractLsb' 34 2).isLt
  generalize (w.extractLsb' 36 4).toNat = a at *
  generalize (w.extractLsb' 32 2).toNat = b at *
  generalize (w.extractLsb' 34 2).toNat = c at *
  rw [← Nat.shiftLeft_add_eq_or_of_lt (by decide), ← Nat.shiftLeft_add_eq_or_of_lt h2, ← Nat.shiftLeft_add_eq_or_of_lt h3]
  simp [Nat.shiftLeft_eq]
  omega

theorem operandFits_iff {v : Nat} : operandFits v = true ↔ v < 2 ^ 32 := by simp [operandFits]

theorem channelFits_iff {ch : Nat} : channelFits ch = true ↔ ch < 4 := by simp [channelFits]

/-- A well-formed command is one whose CH and OPND fit their fields (R70, R79). -/
theorem instr_wf_iff (i : Instr) : i.wf = true ↔ channelOf i < 4 ∧ operandOf i < 2 ^ 32 := by
  cases i <;> simp [Instr.wf, channelOf, operandOf, operandFits_iff, channelFits_iff]

theorem opcodeOf_lt (i : Instr) : opcodeOf i < 16 := by cases i <;> simp [opcodeOf]

/-- What a configuration that is not refused satisfies (R6). -/
theorem config_wf_iff (c : Config) : c.wf = true ↔
    ((0 < c.clkHz ∧ c.clkHz % 1000000 = 0) ∧ (1 ≤ c.div.length ∧ c.div.length ≤ 7)) ∧
      (∀ d ∈ c.div, 1 ≤ d) ∧ c.div.Pairwise (· < ·) := by
  simp [Config.wf, Config.clockOk, Config.countOk, Config.positiveOk, Config.ascendingOk, and_assoc]

theorem clkMHz_pos {c : Config} (h : c.wf = true) : 1 ≤ c.clkMHz := by
  have := ((config_wf_iff c).1 h).1.1
  unfold Config.clkMHz
  omega

end Sys2Proof
end

