-- ==== Sys2Proof/Laws/State.lean ====
section
/-! SUPPORT. The field lemmas of the named updates of State, each true by its definition, so that no proof unfolds a record update. -/

namespace Sys2Proof.Machine

section finish
variable (s : State) (k : StatusCode) (r : Reg)

@[simp] theorem State.finish_config : (s.finish k r).config = s.config := rfl
@[simp] theorem State.finish_top : (s.finish k r).top = s.top := rfl
@[simp] theorem State.finish_res : (s.finish k r).res = s.res := rfl
@[simp] theorem State.finish_cmpA : (s.finish k r).cmpA = s.cmpA := rfl
@[simp] theorem State.finish_cmpB : (s.finish k r).cmpB = s.cmpB := rfl
@[simp] theorem State.finish_ctrl : (s.finish k r).ctrl = s.ctrl := rfl
@[simp] theorem State.finish_code : (s.finish k r).code = k.bits := rfl
@[simp] theorem State.finish_result : (s.finish k r).result = r := rfl
@[simp] theorem State.finish_history : (s.finish k r).history = s.history := rfl
@[simp] theorem State.finish_pending : (s.finish k r).pending = s.pending := rfl
@[simp] theorem State.finish_replies : (s.finish k r).replies = s.replies := rfl

end finish

section raise
variable (s : State) (k : StatusCode)

@[simp] theorem State.raise_config : (s.raise k).config = s.config := rfl
@[simp] theorem State.raise_top : (s.raise k).top = s.top := rfl
@[simp] theorem State.raise_res : (s.raise k).res = s.res := rfl
@[simp] theorem State.raise_cmpA : (s.raise k).cmpA = s.cmpA := rfl
@[simp] theorem State.raise_cmpB : (s.raise k).cmpB = s.cmpB := rfl
@[simp] theorem State.raise_ctrl : (s.raise k).ctrl = s.ctrl := rfl
@[simp] theorem State.raise_code : (s.raise k).code = k.bits := rfl
@[simp] theorem State.raise_result : (s.raise k).result = 0 := rfl
@[simp] theorem State.raise_history : (s.raise k).history = s.history := rfl
@[simp] theorem State.raise_pending : (s.raise k).pending = s.pending := rfl
@[simp] theorem State.raise_replies : (s.raise k).replies = s.replies := rfl

end raise

section emit
variable (s : State) (ev : TimerEvent)

@[simp] theorem State.emit_config : (s.emit ev).config = s.config := rfl
@[simp] theorem State.emit_top : (s.emit ev).top = s.top := rfl
@[simp] theorem State.emit_res : (s.emit ev).res = s.res := rfl
@[simp] theorem State.emit_cmpA : (s.emit ev).cmpA = s.cmpA := rfl
@[simp] theorem State.emit_cmpB : (s.emit ev).cmpB = s.cmpB := rfl
@[simp] theorem State.emit_ctrl : (s.emit ev).ctrl = s.ctrl := rfl
@[simp] theorem State.emit_code : (s.emit ev).code = s.code := rfl
@[simp] theorem State.emit_result : (s.emit ev).result = s.result := rfl
@[simp] theorem State.emit_history : (s.emit ev).history = s.history ++ [ev] := rfl
@[simp] theorem State.emit_pending : (s.emit ev).pending = s.pending := rfl
@[simp] theorem State.emit_replies : (s.emit ev).replies = s.replies := rfl

end emit

section resetOf
variable (c : Config)

@[simp] theorem State.resetOf_config : (State.resetOf c).config = c := rfl
@[simp] theorem State.resetOf_top : (State.resetOf c).top = 0 := rfl
@[simp] theorem State.resetOf_res : (State.resetOf c).res = 0 := rfl
@[simp] theorem State.resetOf_cmpA : (State.resetOf c).cmpA = 0 := rfl
@[simp] theorem State.resetOf_cmpB : (State.resetOf c).cmpB = 0 := rfl
@[simp] theorem State.resetOf_ctrl : (State.resetOf c).ctrl = Ctrl.atReset := rfl
@[simp] theorem State.resetOf_code : (State.resetOf c).code = 0 := rfl
@[simp] theorem State.resetOf_result : (State.resetOf c).result = 0 := rfl
@[simp] theorem State.resetOf_history : (State.resetOf c).history = [] := rfl
@[simp] theorem State.resetOf_pending : (State.resetOf c).pending = [] := rfl
@[simp] theorem State.resetOf_replies : (State.resetOf c).replies = [] := rfl

end resetOf

section setCmp
variable (s : State) (c : Channel) (v : Reg)

@[simp] theorem State.setCmp_config : (s.setCmp c v).config = s.config := by cases c <;> rfl
@[simp] theorem State.setCmp_top : (s.setCmp c v).top = s.top := by cases c <;> rfl
@[simp] theorem State.setCmp_res : (s.setCmp c v).res = s.res := by cases c <;> rfl
@[simp] theorem State.setCmp_ctrl : (s.setCmp c v).ctrl = s.ctrl := by cases c <;> rfl
@[simp] theorem State.setCmp_code : (s.setCmp c v).code = s.code := by cases c <;> rfl
@[simp] theorem State.setCmp_result : (s.setCmp c v).result = s.result := by cases c <;> rfl
@[simp] theorem State.setCmp_history : (s.setCmp c v).history = s.history := by cases c <;> rfl
@[simp] theorem State.setCmp_pending : (s.setCmp c v).pending = s.pending := by cases c <;> rfl
@[simp] theorem State.setCmp_replies : (s.setCmp c v).replies = s.replies := by cases c <;> rfl
@[simp] theorem State.setCmp_a_cmpA : (s.setCmp .a v).cmpA = v := rfl
@[simp] theorem State.setCmp_a_cmpB : (s.setCmp .a v).cmpB = s.cmpB := rfl
@[simp] theorem State.setCmp_b_cmpA : (s.setCmp .b v).cmpA = s.cmpA := rfl
@[simp] theorem State.setCmp_b_cmpB : (s.setCmp .b v).cmpB = v := rfl
@[simp] theorem State.setCmp_cmp_same : (s.setCmp c v).cmp c = v := by cases c <;> rfl
theorem State.setCmp_cmp_other (c' : Channel) (h : c' ≠ c) : (s.setCmp c v).cmp c' = s.cmp c' := by
  cases c <;> cases c' <;> first | rfl | exact absurd rfl h

end setCmp

section drive
variable (s : State) (c : Channel) (v : Reg)

@[simp] theorem State.drive_config : (s.drive c v).config = s.config := by cases c <;> rfl
@[simp] theorem State.drive_top : (s.drive c v).top = s.top := by cases c <;> rfl
@[simp] theorem State.drive_res : (s.drive c v).res = s.res := by cases c <;> rfl
@[simp] theorem State.drive_ctrl : (s.drive c v).ctrl = s.ctrl := by cases c <;> rfl
@[simp] theorem State.drive_code : (s.drive c v).code = s.code := by cases c <;> rfl
@[simp] theorem State.drive_result : (s.drive c v).result = s.result := by cases c <;> rfl
@[simp] theorem State.drive_history : (s.drive c v).history = s.history ++ [.setCompare c v] := by cases c <;> rfl
@[simp] theorem State.drive_pending : (s.drive c v).pending = s.pending := by cases c <;> rfl
@[simp] theorem State.drive_replies : (s.drive c v).replies = s.replies := by cases c <;> rfl
@[simp] theorem State.drive_a_cmpA : (s.drive .a v).cmpA = v := rfl
@[simp] theorem State.drive_a_cmpB : (s.drive .a v).cmpB = s.cmpB := rfl
@[simp] theorem State.drive_b_cmpA : (s.drive .b v).cmpA = s.cmpA := rfl
@[simp] theorem State.drive_b_cmpB : (s.drive .b v).cmpB = v := rfl
@[simp] theorem State.drive_cmp_same : (s.drive c v).cmp c = v := by cases c <;> rfl
theorem State.drive_cmp_other (c' : Channel) (h : c' ≠ c) : (s.drive c v).cmp c' = s.cmp c' := by
  cases c <;> cases c' <;> first | rfl | exact absurd rfl h

end drive

section commitPeriod
variable (s : State) (i cand : Nat)

@[simp] theorem State.commitPeriod_config : (s.commitPeriod i cand).config = s.config := rfl
@[simp] theorem State.commitPeriod_top : (s.commitPeriod i cand).top = BitVec.ofNat 16 cand := rfl
@[simp] theorem State.commitPeriod_res : (s.commitPeriod i cand).res = s.res := rfl
@[simp] theorem State.commitPeriod_cmpA : (s.commitPeriod i cand).cmpA = s.cmpA := rfl
@[simp] theorem State.commitPeriod_cmpB : (s.commitPeriod i cand).cmpB = s.cmpB := rfl
@[simp] theorem State.commitPeriod_ctrl : (s.commitPeriod i cand).ctrl = { cs := BitVec.ofNat 3 (i + 1), cfg := 1, oe := 1 } := rfl
@[simp] theorem State.commitPeriod_code : (s.commitPeriod i cand).code = 0 := rfl
@[simp] theorem State.commitPeriod_result : (s.commitPeriod i cand).result = 1 := rfl
@[simp] theorem State.commitPeriod_history : (s.commitPeriod i cand).history = s.history ++ [.commit s.config.modeWord 0 (BitVec.ofNat 16 cand) (BitVec.ofNat 3 (i + 1)) 1] := rfl
@[simp] theorem State.commitPeriod_pending : (s.commitPeriod i cand).pending = s.pending := rfl
@[simp] theorem State.commitPeriod_replies : (s.commitPeriod i cand).replies = s.replies := rfl

end commitPeriod

section negotiate
variable (s : State) (bits : Nat)

@[simp] theorem State.negotiate_config : (s.negotiate bits).config = s.config := rfl
@[simp] theorem State.negotiate_top : (s.negotiate bits).top = s.top := rfl
@[simp] theorem State.negotiate_res : (s.negotiate bits).res = BitVec.ofNat 16 (2 ^ negotiatedWidth bits s.top.toNat - 1) := rfl
@[simp] theorem State.negotiate_cmpA : (s.negotiate bits).cmpA = s.cmpA := rfl
@[simp] theorem State.negotiate_cmpB : (s.negotiate bits).cmpB = s.cmpB := rfl
@[simp] theorem State.negotiate_ctrl : (s.negotiate bits).ctrl = s.ctrl := rfl
@[simp] theorem State.negotiate_code : (s.negotiate bits).code = 0 := rfl
@[simp] theorem State.negotiate_result : (s.negotiate bits).result = BitVec.ofNat 16 (negotiatedWidth bits s.top.toNat) := rfl
@[simp] theorem State.negotiate_history : (s.negotiate bits).history = s.history := rfl
@[simp] theorem State.negotiate_pending : (s.negotiate bits).pending = s.pending := rfl
@[simp] theorem State.negotiate_replies : (s.negotiate bits).replies = s.replies := rfl

end negotiate

/-- CMP[c] after a finish is CMP[c] before it. -/
@[simp] theorem State.finish_cmp (s : State) (k : StatusCode) (r : Reg) (c : Channel) : (s.finish k r).cmp c = s.cmp c := by
  cases c <;> rfl

/-- CMP[c] after a raise is CMP[c] before it. -/
@[simp] theorem State.raise_cmp (s : State) (k : StatusCode) (c : Channel) : (s.raise k).cmp c = s.cmp c := by
  cases c <;> rfl

/-- The lines after a finish are the lines before it. -/
@[simp] theorem State.finish_lines (s : State) (k : StatusCode) (r : Reg) : (s.finish k r).lines = s.lines := rfl

/-- The lines after a raise are the lines before it. -/
@[simp] theorem State.raise_lines (s : State) (k : StatusCode) : (s.raise k).lines = s.lines := rfl

end Sys2Proof.Machine
end

