-- ==== Sys2Proof/Laws/Ops.lean ====
section
/-! SUPPORT. One lemma per shared operation, saying everything it can do: the configuration guard, the channel identifiers, the status numbers,
flog2 and the widths, the scalings, the candidate, and the divider search. -/

namespace Sys2Proof.Machine

/-- The guard of R8 answers next exactly in a configuration that is not refused, and then with the given state. -/
theorem inConfig_eq_next {s t u : State} : s.inConfig t = .next u ↔ s.config.wf = true ∧ u = t := by
  unfold State.inConfig
  split
  · simp [*, eq_comm]
  · simp [*]

theorem inConfig_of_wf {s t : State} (h : s.config.wf = true) : s.inConfig t = .next t :=
  inConfig_eq_next.2 ⟨h, rfl⟩

theorem inConfig_of_not_wf {s t : State} (h : s.config.wf = false) : s.inConfig t = .refused .configurationRefused := by
  simp [State.inConfig, h]

/-- Every identifier is a channel's or unknown (R72). -/
theorem channelOfId_cases (ch : Nat) :
    (ch = 0 ∧ channelOfId ch = some .a) ∨ (ch = 1 ∧ channelOfId ch = some .b) ∨ (2 ≤ ch ∧ channelOfId ch = none) := by
  match ch with
  | 0 => exact .inl ⟨rfl, rfl⟩
  | 1 => exact .inr (.inl ⟨rfl, rfl⟩)
  | n + 2 => exact .inr (.inr ⟨by omega, rfl⟩)

theorem channelOfId_unknown {ch : Nat} (h : 2 ≤ ch) : channelOfId ch = none := by
  rcases channelOfId_cases ch with h' | h' | h'
  · omega
  · omega
  · exact h'.2

/-- No status code is 6 or 7 (R171). -/
theorem statusBits_le (k : StatusCode) : k.bits.toNat ≤ 5 := by cases k <;> decide

theorem flog2_zero : flog2 0 = 0 := rfl

/-- flog2 t is the largest k with 2^k ≤ t (R11). -/
theorem flog2_spec {t : Nat} (h : t ≠ 0) : 2 ^ flog2 t ≤ t ∧ t < 2 ^ (flog2 t + 1) := by
  simp only [flog2, h, if_false]
  exact ⟨Nat.log2_self_le h, Nat.lt_log2_self⟩

/-- The achievable width of a 16-bit TOP is at most 15 (R121). -/
theorem flog2_le_fifteen (r : Reg) : flog2 r.toNat ≤ 15 := by
  by_cases h : r.toNat = 0
  · simp [h, flog2]
  · have h1 := (flog2_spec h).1
    have h2 := r.isLt
    by_contra hc
    have : 2 ^ 16 ≤ 2 ^ flog2 r.toNat := Nat.pow_le_pow_right (by decide) (by omega)
    omega

theorem negotiatedWidth_le_fifteen (bits : Nat) (r : Reg) : negotiatedWidth bits r.toNat ≤ 15 :=
  le_trans (Nat.min_le_right _ _) (flog2_le_fifteen r)

/-- 2^k - 1 fits RES for every width SETRES can set (R123). -/
theorem mask_lt {k : Nat} (h : k ≤ 15) : 2 ^ k - 1 < 2 ^ 16 := by
  have : 2 ^ k ≤ 2 ^ 15 := Nat.pow_le_pow_right (by decide) h
  omega

/-- The value of WRITE never exceeds TOP (R144, R146). -/
theorem scaledDuty_le (d top res : Nat) : scaledDuty d top res ≤ top := by
  unfold scaledDuty clampDuty
  by_cases h : res = 0
  · simp [h]
  · refine Nat.div_le_of_le_mul ?_
    exact Nat.mul_le_mul_right top (Nat.min_le_right d res)

theorem scaledDuty_lt (d res : Nat) (top : Reg) : scaledDuty d top.toNat res < 2 ^ 16 :=
  lt_of_le_of_lt (scaledDuty_le d top.toNat res) top.isLt

theorem candidateFits_iff (c : Int) : candidateFits c = true ↔ 0 ≤ c ∧ c ≤ 65535 := by
  simp [candidateFits]

/-- What the divider search answers: the first entry whose candidate fits, with the candidate, or none when no candidate fits (R102). -/
theorem searchDivider_eq_some {m p : Nat} : ∀ {ds : List Nat} {k i t : Nat}, searchDivider m p ds k = some (i, t) ↔
    ∃ j d, i = k + j ∧ ds[j]? = some d ∧ candidateFits (candidateTop m p d) = true ∧ t = (candidateTop m p d).toNat ∧
      ∀ j' e, j' < j → ds[j']? = some e → candidateFits (candidateTop m p e) = false := by
  intro ds
  induction ds with
  | nil => intro k i t; simp [searchDivider]
  | cons d ds ih =>
    intro k i t
    by_cases hd : candidateFits (candidateTop m p d) = true
    · simp only [searchDivider, hd, if_true, Option.some.injEq, Prod.mk.injEq]
      constructor
      · rintro ⟨rfl, rfl⟩
        exact ⟨0, d, rfl, rfl, hd, rfl, by omega⟩
      · rintro ⟨j, e, hi, he, _, ht, hj⟩
        cases j with
        | zero =>
          obtain rfl : d = e := by simpa using he
          exact ⟨by omega, ht.symm⟩
        | succ j => exact absurd (hj 0 d (by omega) rfl) (by simp [hd])
    · have hd' : candidateFits (candidateTop m p d) = false := by simpa using hd
      simp only [searchDivider, hd', Bool.false_eq_true, if_false, ih]
      constructor
      · rintro ⟨j, e, hi, he, hf, ht, hj⟩
        refine ⟨j + 1, e, by omega, by simpa using he, hf, ht, ?_⟩
        intro j' e' hj' he'
        cases j' with
        | zero =>
          obtain rfl : d = e' := by simpa using he'
          exact hd'
        | succ j' => exact hj j' e' (by omega) (by simpa using he')
      · rintro ⟨j, e, hi, he, hf, ht, hj⟩
        cases j with
        | zero =>
          obtain rfl : d = e := by simpa using he
          exact absurd hf (by simp [hd'])
        | succ j =>
          exact ⟨j, e, by omega, by simpa using he, hf, ht, fun j' e' hj' he' => hj (j' + 1) e' (by omega) (by simpa using he')⟩

theorem searchDivider_eq_none {m p : Nat} : ∀ {ds : List Nat} {k : Nat}, searchDivider m p ds k = none ↔
    ∀ d ∈ ds, candidateFits (candidateTop m p d) = false := by
  intro ds
  induction ds with
  | nil => intro k; simp [searchDivider]
  | cons d ds ih =>
    intro k
    by_cases hd : candidateFits (candidateTop m p d) = true
    · simp [searchDivider, hd]
    · have hd' : candidateFits (candidateTop m p d) = false := by simpa using hd
      simp [searchDivider, hd', ih]

end Sys2Proof.Machine
end

