-- ==== Sys2Proof/Laws/Machine.lean ====
section
/-! SUPPORT. What each command and each step can do, said once: when exec and step answer next, and the cases of each effect. -/

namespace Sys2Proof.Machine

/-- The effect of a command on the state, apart from the configuration guard. -/
def effectOf (i : Instr) (s : State) : State :=
  match i with
  | .init period => s.solvePeriod period
  | .setres bits => s.negotiate bits
  | .write ch duty => s.writeDuty ch duty
  | .writef ch fix => s.writeFraction ch fix

/-- A command is its effect behind the configuration guard (R8). -/
theorem exec_eq_inConfig (i : Instr) (s : State) : exec i s = s.inConfig (effectOf i s) := by
  cases i <;> rfl

theorem exec_eq_next {i : Instr} {s t : State} : exec i s = .next t ↔ s.config.wf = true ∧ t = effectOf i s := by
  rw [exec_eq_inConfig, inConfig_eq_next]

/-- INIT commits the first candidate that fits or reports UNREPRESENTABLE_PERIOD (R103). -/
theorem solvePeriod_cases (s : State) (p : Nat) :
    (∃ i t, findDivider s.config p = some (i, t) ∧ s.solvePeriod p = s.commitPeriod i t) ∨
    (findDivider s.config p = none ∧ s.solvePeriod p = s.raise .unrepresentablePeriod) := by
  unfold State.solvePeriod
  cases h : findDivider s.config p with
  | none => exact .inr ⟨rfl, rfl⟩
  | some r => exact .inl ⟨r.1, r.2, rfl, rfl⟩

/-- The accepted divider is in the table and its candidate fits TOP; none means that no candidate fits (R102). -/
theorem findDivider_eq_some {c : Config} {p i t : Nat} : findDivider c p = some (i, t) ↔
    ∃ d, c.div[i]? = some d ∧ candidateFits (candidateTop c.clkMHz p d) = true ∧ t = (candidateTop c.clkMHz p d).toNat ∧
      ∀ j e, j < i → c.div[j]? = some e → candidateFits (candidateTop c.clkMHz p e) = false := by
  unfold findDivider
  rw [searchDivider_eq_some]
  constructor
  · rintro ⟨j, d, rfl, h⟩
    exact ⟨d, by simpa using h⟩
  · rintro ⟨d, h⟩
    exact ⟨i, d, by simp, by simpa using h⟩

theorem findDivider_eq_none {c : Config} {p : Nat} : findDivider c p = none ↔
    ∀ d ∈ c.div, candidateFits (candidateTop c.clkMHz p d) = false := searchDivider_eq_none

/-- The accepted index is below N and the accepted candidate is a 16-bit value (R102). -/
theorem findDivider_bounds {c : Config} {p i t : Nat} (h : findDivider c p = some (i, t)) : i < c.div.length ∧ t ≤ 65535 := by
  obtain ⟨d, hd, hf, rfl, -⟩ := findDivider_eq_some.1 h
  have h2 := (candidateFits_iff _).1 hf
  exact ⟨(List.getElem?_eq_some_iff.1 hd).1, by omega⟩

/-- WRITE's three cases (R141). -/
theorem writeDuty_cases (s : State) (ch d : Nat) :
    (2 ≤ ch ∧ s.writeDuty ch d = s.raise .unknownChannel) ∨
    (∃ c, channelOfId ch = some c ∧ s.res.toNat = 0 ∧ s.writeDuty ch d = (s.drive c 0).raise .zeroResolution) ∨
    (∃ c, channelOfId ch = some c ∧ s.res.toNat ≠ 0 ∧
      s.writeDuty ch d = (s.drive c (BitVec.ofNat 16 (scaledDuty d s.top.toNat s.res.toNat))).finish .ok 0) := by
  unfold State.writeDuty
  rcases channelOfId_cases ch with ⟨_, h⟩ | ⟨_, h⟩ | ⟨h2, h⟩ <;> by_cases hr : s.res.toNat = 0 <;> simp [h, hr]
  all_goals omega

/-- WRITEF's three cases (R152). -/
theorem writeFraction_cases (s : State) (ch f : Nat) :
    (2 ≤ ch ∧ s.writeFraction ch f = s.raise .unknownChannel) ∨
    (∃ c, channelOfId ch = some c ∧ 65535 < scaledFraction f s.top.toNat ∧
      s.writeFraction ch f = (s.drive c (BitVec.ofNat 16 65535)).raise .fracSaturated) ∨
    (∃ c, channelOfId ch = some c ∧ scaledFraction f s.top.toNat ≤ 65535 ∧
      s.writeFraction ch f = (s.drive c (BitVec.ofNat 16 (scaledFraction f s.top.toNat))).finish .ok 0) := by
  unfold State.writeFraction
  rcases channelOfId_cases ch with ⟨_, h⟩ | ⟨_, h⟩ | ⟨h2, h⟩ <;>
    by_cases hp : scaledFraction f s.top.toNat > 65535 <;> simp [h, hp]
  all_goals omega

/-- What one command word does to the state, apart from the configuration guard (R76, R175). -/
def wordEffect (w : CmdWord) (s : State) : State :=
  match decodeWord w with
  | .instr i => effectOf i s
  | .illegal _ => s.raise .illegalCommand

theorem performWord_eq_inConfig (w : CmdWord) (s : State) : performWord w s = s.inConfig (wordEffect w s) := by
  unfold performWord wordEffect
  cases decodeWord w with
  | instr i => exact exec_eq_inConfig i s
  | illegal why => rfl

/-- What one access does to the state, apart from the configuration guard. -/
def accessEffect (a : HostAccess) (s : State) : State :=
  match a with
  | .command w => wordEffect w s
  | .bytes bs => ((wordOfBytes bs).map fun w => wordEffect w s).getD s
  | .read n => { s with replies := s.replies ++ [s.readBack n] }
  | .reset _ => { State.resetOf s.config with pending := s.pending, replies := s.replies }

/-- An access is its effect behind the configuration guard. -/
theorem performAccess_eq_inConfig (a : HostAccess) (s : State) : performAccess a s = s.inConfig (accessEffect a s) := by
  cases a with
  | command w => exact performWord_eq_inConfig w s
  | bytes bs =>
    simp only [performAccess, performBytes, accessEffect]
    cases wordOfBytes bs with
    | some w => exact performWord_eq_inConfig w s
    | none => rfl
  | read n => rfl
  | reset a => rfl

/-- What one step does to the state, apart from the configuration guard. -/
def stepEffect (s : State) : State :=
  match s.pending with
  | [] => s
  | a :: rest => accessEffect a { s with pending := rest }

/-- A step is its effect behind the configuration guard: every step completes in a configuration that is not refused. -/
theorem step_eq_inConfig (s : State) : step s = s.inConfig (stepEffect s) := by
  unfold step stepEffect
  cases s.pending with
  | nil => rfl
  | cons a rest => exact performAccess_eq_inConfig a _

theorem step_eq_next {s t : State} : step s = .next t ↔ s.config.wf = true ∧ t = stepEffect s := by
  rw [step_eq_inConfig, inConfig_eq_next]

end Sys2Proof.Machine
end

