-- ==== Sys2Proof/Laws/PerInstr.lean ====
section
/-! SUPPORT. Per-command facts, one lemma a constructor. EncodedFields: each field of a well-formed command's word holds what R75 and R79 put there. -/

namespace Sys2Proof.Laws.EncodedFields

/-- OP, CH, RSV and OPND of the word of a well-formed command (R70, R75, R79). -/
def Statement (i : Instr) : Prop :=
  i.wf = true →
    opField (encode i) = opcodeOf i ∧ chField (encode i) = channelOf i ∧ rsvField (encode i) = 0 ∧ opndField (encode i) = operandOf i

theorem of_any (i : Instr) : Statement i := fun h =>
  have hf := (instr_wf_iff i).1 h
  ⟨opField_packWord (opcodeOf_lt i) hf.1 (by decide) hf.2, chField_packWord (opcodeOf_lt i) hf.1 (by decide) hf.2,
    rsvField_packWord (opcodeOf_lt i) hf.1 (by decide) hf.2, opndField_packWord (opcodeOf_lt i) hf.1 (by decide) hf.2⟩

theorem init (period : Nat) : Statement (.init period) := of_any _

theorem setres (bits : Nat) : Statement (.setres bits) := of_any _

theorem write (ch duty : Nat) : Statement (.write ch duty) := of_any _

theorem writef (ch fix : Nat) : Statement (.writef ch fix) := of_any _

end Sys2Proof.Laws.EncodedFields
end

