-- ==== Sys2Proof/Laws/Claims.lean ====
section
/-! SUPPORT. The bridge from the machine's operations to the terms of Safety.lean, which the proofs of the obligations cite: the divider search as
FirstFit, the effects as the spelled-out states, flog2 as IsFlog2, and the cases of one step. -/

namespace Sys2Proof.Safety

open Sys2Proof.Machine

theorem candidateTop_eq_candOf (c : Config) (p d : Nat) : candidateTop c.clkMHz p d = candOf c p d := rfl

theorem candidateFits_iff_fits (c : Config) (p d : Nat) : candidateFits (candidateTop c.clkMHz p d) = true ↔ Fits c p d := by
  rw [candidateFits_iff]; rfl

theorem candidateFits_eq_false_iff (c : Config) (p d : Nat) : candidateFits (candidateTop c.clkMHz p d) = false ↔ ¬ Fits c p d := by
  rw [← candidateFits_iff_fits]; simp

/-- INIT's search answers exactly the first fit of R102, with its candidate. -/
theorem findDivider_eq_some_iff_firstFit {c : Config} {p i t : Nat} :
    findDivider c p = some (i, t) ↔ ∃ d, FirstFit c p i d ∧ (t : Int) = candOf c p d := by
  rw [findDivider_eq_some]
  simp only [candidateFits_iff_fits, candidateFits_eq_false_iff, FirstFit]
  constructor
  · rintro ⟨d, h1, h2, h3, h4⟩
    refine ⟨d, ⟨h1, h2, h4⟩, ?_⟩
    have := h2.1
    rw [h3, candidateTop_eq_candOf]
    omega
  · rintro ⟨d, ⟨h1, h2, h4⟩, h3⟩
    exact ⟨d, h1, h2, by rw [candidateTop_eq_candOf]; omega, h4⟩

theorem findDivider_eq_none_iff {c : Config} {p : Nat} : findDivider c p = none ↔ ∀ d ∈ c.div, ¬ Fits c p d := by
  rw [findDivider_eq_none]
  simp only [candidateFits_eq_false_iff]

/-- A larger divider has a smaller candidate (R101). -/
theorem candOf_antitone {c : Config} {p d e : Nat} (hd : 1 ≤ d) (h : d ≤ e) : candOf c p e ≤ candOf c p d := by
  have := Nat.div_le_div_left (a := c.clkHz / 1000000 * p) h hd
  unfold candOf
  omega

theorem commitPeriod_eq_committed (s : State) (i t : Nat) : s.commitPeriod i t = committed s i t := rfl

theorem raise_eq_onlyReports (s : State) (k : StatusCode) : s.raise k = onlyReports s k.bits := rfl

theorem finish_drive_eq_driven (s : State) (c : Channel) (v : Nat) (k : StatusCode) :
    (s.drive c (BitVec.ofNat 16 v)).finish k 0 = driven s c v k.bits := by cases c <;> rfl

theorem driven_cmp (s : State) (c : Channel) (v : Nat) (k : BitVec 3) : (driven s c v k).cmp c = BitVec.ofNat 16 v := by
  cases c <;> rfl

theorem driven_code (s : State) (c : Channel) (v : Nat) (k : BitVec 3) : (driven s c v k).code = k := by
  cases c <;> rfl

theorem channelOfId_idOf (c : Channel) : channelOfId (idOf c) = some c := by cases c <;> rfl

theorem idOf_lt_two (c : Channel) : idOf c < 2 := by cases c <;> decide

theorem eq_idOf_of_channelOfId {ch : Nat} {c : Channel} (h : channelOfId ch = some c) : ch = idOf c := by
  rcases channelOfId_cases ch with ⟨a, b⟩ | ⟨a, b⟩ | ⟨a, b⟩ <;> rw [b] at h <;> cases h <;> exact a

theorem isFlog2_flog2 (t : Nat) : IsFlog2 t (flog2 t) := by
  by_cases h : t = 0
  · subst h; exact .inl ⟨rfl, rfl⟩
  · exact .inr (flog2_spec h)

theorem isFlog2_unique {t a b : Nat} (ha : IsFlog2 t a) (hb : IsFlog2 t b) : a = b := by
  have le : ∀ {a b : Nat}, 2 ^ a ≤ t → t < 2 ^ (b + 1) → a ≤ b := by
    intro a b h1 h2
    have := (Nat.pow_lt_pow_iff_right (a := 2) (by decide)).1 (lt_of_le_of_lt h1 h2)
    omega
  have pos : ∀ a : Nat, 0 < 2 ^ a := fun a => by positivity
  rcases ha with ⟨h1, h2⟩ | ⟨h1, h2⟩ <;> rcases hb with ⟨h3, h4⟩ | ⟨h3, h4⟩
  · omega
  · have := pos b; omega
  · have := pos a; omega
  · exact le_antisymm (le h1 h4) (le h3 h2)

theorem replayLines_append (h : List TimerEvent) (ev : TimerEvent) : replayLines (h ++ [ev]) = driveLines (replayLines h) ev := by
  simp [replayLines]

/-- No command touches the host's lists or the configuration. -/
theorem effectOf_keeps_model_fields (i : Instr) (s : State) :
    (effectOf i s).replies = s.replies ∧ (effectOf i s).pending = s.pending ∧ (effectOf i s).config = s.config := by
  cases i with
  | init p => rcases solvePeriod_cases s p with ⟨i, t, _, h⟩ | ⟨_, h⟩ <;> simp [effectOf, h]
  | setres r => simp [effectOf]
  | write c d => rcases writeDuty_cases s c d with ⟨_, h⟩ | ⟨_, _, _, h⟩ | ⟨_, _, _, h⟩ <;> simp [effectOf, h]
  | writef c d => rcases writeFraction_cases s c d with ⟨_, h⟩ | ⟨_, _, _, h⟩ | ⟨_, _, _, h⟩ <;> simp [effectOf, h]

theorem wordEffect_keeps_model_fields (w : CmdWord) (s : State) :
    (wordEffect w s).replies = s.replies ∧ (wordEffect w s).pending = s.pending ∧ (wordEffect w s).config = s.config := by
  unfold wordEffect
  split
  · exact effectOf_keeps_model_fields _ _
  · simp

/-- A step whose oldest access is a command write has that word's effect. -/
theorem stepEffect_of_headWord {s : State} {w : CmdWord} (h : headWord s = some w) :
    stepEffect s = wordEffect w { s with pending := s.pending.tail } := by
  unfold headWord at h
  unfold stepEffect
  split at h
  · rename_i hp; cases h; simp [hp, accessEffect]
  · rename_i hp; simp [hp, accessEffect, h]
  · cases h

/-- Everything one step can do: take reset, run a command, report an illegal word, or touch the host's lists only. -/
theorem stepEffect_cases (s : State) :
    TakesReset s ∨
    (∃ i, RunsCommand s i ∧ stepEffect s = effectOf i { s with pending := s.pending.tail }) ∨
    (headWord s ≠ none ∧ stepEffect s = onlyReports { s with pending := s.pending.tail } 5) ∨
    (∃ r p, stepEffect s = { s with pending := p, replies := r }) := by
  cases hh : headWord s with
  | some w =>
    have he := stepEffect_of_headWord hh
    unfold wordEffect at he
    cases hd : decodeWord w with
    | instr i => exact .inr (.inl ⟨i, ⟨w, hh, hd⟩, by rw [he, hd]⟩)
    | illegal why => exact .inr (.inr (.inl ⟨by simp, by rw [he, hd]; rfl⟩))
  | none =>
    unfold headWord at hh
    unfold stepEffect
    cases hp : s.pending with
    | nil => exact .inr (.inr (.inr ⟨s.replies, s.pending, rfl⟩))
    | cons a rest =>
      cases a with
      | command w => rw [hp] at hh; simp at hh
      | bytes bs =>
        rw [hp] at hh
        simp at hh
        exact .inr (.inr (.inr ⟨s.replies, rest, by simp [accessEffect, hh]⟩))
      | read n => exact .inr (.inr (.inr ⟨_, rest, rfl⟩))
      | reset a => exact .inl ⟨a, rest, hp⟩

end Sys2Proof.Safety
end

