-- ==== Sys2Proof/Tests/Slice0.lean ====
section
/-! SUPPORT. The model's own tests: words written out from R70 and R75, the checks of WellFormed, vectors of spec/95_test_vectors.md (all derived from the
rules), and for each statement with hypotheses a concrete state and operands that meet them. -/

namespace Sys2Proof.Tests

open Sys2Proof Sys2Proof.Machine Sys2Proof.Safety

/-- The reference configuration with a concrete mode word, so that events can be compared. -/
def cfg : Config := { clkHz := 16000000, div := [1, 8, 64, 256, 1024], modeWord := 7, portBase := 0, cmdLatency := 0 }

/-- A configured state with the given TOP, RES, CMPA and CMPB. -/
def st (top res cmpA cmpB : Reg) : State :=
  { State.resetOf cfg with top := top, res := res, cmpA := cmpA, cmpB := cmpB, ctrl := { cs := 2, cfg := 1, oe := 1 } }

/-- The next state, where there is one. -/
def nextOf (o : Host.Outcome State Fault Refusal) : Option State :=
  match o with
  | .next t => some t
  | _ => none

/-- TOP, RES, CMPA, CMPB, CS, CODE and RESULT, as spec/95 lists them. -/
def regs (s : State) : List Nat :=
  [s.top.toNat, s.res.toNat, s.cmpA.toNat, s.cmpB.toNat, s.ctrl.cs.toNat, s.code.toNat, s.result.toNat]

/-! Words written out field by field from R70 and R75. -/

theorem test_decode_init : decodeWord (0b0001#4 ++ 0b00#2 ++ 0b00#2 ++ 20000#32) = .instr (.init 20000) := by decide

theorem test_decode_setres : decodeWord (0b0010#4 ++ 0b00#2 ++ 0b00#2 ++ 16#32) = .instr (.setres 16) := by decide

theorem test_decode_write : decodeWord (0b0011#4 ++ 0b01#2 ++ 0b00#2 ++ 32767#32) = .instr (.write 1 32767) := by decide

theorem test_decode_writef : decodeWord (0b0100#4 ++ 0b10#2 ++ 0b00#2 ++ 0x8000#32) = .instr (.writef 2 0x8000) := by decide

theorem test_decode_illegal :
    decodeWord (0b0011#4 ++ 0b11#2 ++ 0b10#2 ++ 1#32) = .illegal .reservedBits ∧
    decodeWord (0b0001#4 ++ 0b01#2 ++ 0b00#2 ++ 1000#32) = .illegal .channelBits ∧
    decodeWord (0b0010#4 ++ 0b10#2 ++ 0b00#2 ++ 16#32) = .illegal .channelBits ∧
    decodeWord (0b0101#4 ++ 0b00#2 ++ 0b00#2 ++ 0#32) = .illegal .unassignedOpcode ∧
    decodeWord (0b1111#4 ++ 0b00#2 ++ 0b00#2 ++ 0xFFFFFFFF#32) = .illegal .unassignedOpcode := by decide

theorem test_encode_examples :
    encode (.init 20000) = 0x1000004E20 ∧ encode (.setres 16) = 0x2000000010 ∧
    encode (.write 1 32767) = 0x3400007FFF ∧ encode (.writef 1 0x18000) = 0x4400018000 := by decide

/-- R52: byte 0 is the operand's least significant byte, byte 4 carries OP and CH. -/
theorem test_bytes_little_endian : decodeBytes [0x20, 0x4E, 0x00, 0x00, 0x10] = some (.instr (.init 20000)) := by decide

theorem test_table_words :
    decodeTableWord 40 0x1000000000 = some (.init 0) ∧ decodeTableWord 40 0x2000000000 = some (.setres 0) ∧
    decodeTableWord 40 0x3000000000 = some (.write 0 0) ∧ decodeTableWord 40 0x4000000000 = some (.writef 0 0) := by decide

/-! The checks of WellFormed.lean, each with a term it refuses. -/

theorem smoke_init_operand : (Instr.init (2 ^ 32)).wf = false := by decide

theorem smoke_setres_operand : (Instr.setres (2 ^ 32)).wf = false := by decide

theorem smoke_write_channel_and_operand : (Instr.write 4 0).wf = false ∧ (Instr.write 0 (2 ^ 32)).wf = false := by decide

theorem smoke_writef_channel_and_operand : (Instr.writef 4 0).wf = false ∧ (Instr.writef 0 (2 ^ 32)).wf = false := by decide

theorem smoke_config_clock :
    ({ cfg with clkHz := 0 } : Config).wf = false ∧ ({ cfg with clkHz := 14745600 } : Config).wf = false := by decide

theorem smoke_config_count :
    ({ cfg with div := [] } : Config).wf = false ∧ ({ cfg with div := [1, 2, 3, 4, 5, 6, 7, 8] } : Config).wf = false := by decide

theorem smoke_config_positive : ({ cfg with div := [0, 1] } : Config).wf = false := by decide

theorem smoke_config_ascending : ({ cfg with div := [1, 8, 8] } : Config).wf = false := by decide

/-! One step each, against spec/95. -/

/-- E1 as corrected (C1): divider 8, TOP 39999. -/
theorem test_init_20000 :
    (nextOf (exec (.init 20000) (State.resetOf cfg))).map (fun t => (regs t, t.history)) =
      some ([39999, 0, 0, 0, 2, 0, 1], [.commit 7 0 39999 2 1]) := by decide +kernel

/-- V-INIT, last row: a failed INIT keeps the previous configuration (R105). -/
theorem test_init_rolls_back :
    (nextOf (exec (.init 0) (st 15999 255 3 4))).map (fun t => (regs t, t.history)) =
      some ([15999, 255, 3, 4, 2, 1, 0], []) := by decide

/-- V-INIT, the non-reference configuration: INIT 1 succeeds with TOP = 0 (R107 item 5). -/
theorem test_init_top_zero :
    (nextOf (exec (.init 1) (State.resetOf { cfg with clkHz := 1000000, div := [1] }))).map regs =
      some [0, 0, 0, 0, 1, 0, 1] := by decide

/-- E2. -/
theorem test_setres_4999 : (nextOf (exec (.setres 16) (st 4999 0 0 0))).map regs = some [4999, 4095, 0, 0, 2, 0, 12] := by decide

/-- V-SETRES, TOP = 65535 and the largest request. -/
theorem test_setres_largest :
    (nextOf (exec (.setres 4294967295) (st 65535 0 0 0))).map regs = some [65535, 32767, 0, 0, 2, 0, 15] := by decide

/-- V-WRITE, 50 % on A. -/
theorem test_write_half :
    (nextOf (exec (.write 0 16384) (st 39999 32767 1 2))).map (fun t => (regs t, t.history)) =
      some ([39999, 32767, 20000, 2, 2, 0, 0], [.setCompare .a 20000]) := by decide

/-- V-WRITE, RES = 0. -/
theorem test_write_zero_resolution :
    (nextOf (exec (.write 0 5) (st 39999 0 1 2))).map (fun t => (regs t, t.history)) =
      some ([39999, 0, 0, 2, 2, 3, 0], [.setCompare .a 0]) := by decide

/-- V-WRITEF, 1.5 is above TOP and not clamped. -/
theorem test_writef_above_top :
    (nextOf (exec (.writef 1 0x18000) (st 39999 0 1 2))).map (fun t => (regs t, t.history)) =
      some ([39999, 0, 1, 59998, 2, 0, 0], [.setCompare .b 59998]) := by decide

/-- V-WRITEF, the saturation threshold at TOP = 39999. -/
theorem test_writef_saturation_threshold :
    (nextOf (exec (.writef 0 0x1A370) (st 39999 0 1 2))).map regs = some [39999, 0, 65535, 2, 2, 0, 0] ∧
    (nextOf (exec (.writef 0 0x1A371) (st 39999 0 1 2))).map regs = some [39999, 0, 65535, 2, 2, 4, 0] := by decide

/-- V-ILLEGAL: an illegal encoding comes before an unknown channel (R178). -/
theorem test_step_illegal :
    (nextOf (step { st 39999 255 1 2 with pending := [.command 0x3E00000001] })).map (fun t => (regs t, t.history, t.pending)) =
      some ([39999, 255, 1, 2, 2, 5, 0], [], []) := by decide

/-- V-READBACK. -/
theorem test_readback :
    (st 39999 32767 20000 39999).readBack 4 = 0x001A ∧ (st 39999 32767 20000 39999).readBackBytes 0 = [0x3F, 0x9C] ∧
    (st 39999 32767 20000 39999).readBack 7 = 0 := by decide

/-- The first command after reset, through the host's entry point. -/
theorem test_fetch_word_runs_first : (nextOf (step (State.reset.withFetchWord 40 0x1000004E20))).map regs = some [39999, 0, 0, 0, 2, 0, 1] := by
  decide

theorem test_assembler_refuses :
    assembleText "INIT 4294967296" = none ∧ assembleText "WRITE #4, 1" = none ∧ assembleText ".word40 0x100_0000_0000" = none ∧
    assembleText "WRITEFR B, 0.5 ; half" = some 0x4400008000 := by decide

/-! Witnesses: the hypotheses of each statement that has some, met together. -/

theorem witness_DecodeOfEncodeIsIdentity : (Instr.write 3 4294967295).wf = true ∧ (Instr.init 0).wf = true := by decide

theorem witness_EncodeOfDecodeIsIdentity : decodeWord 0x3CFFFFFFFF = .instr (.write 3 4294967295) := by decide

theorem witness_CommandsAreMatchAndMaskRows :
    decodeWord 0x3800000005 = .instr (.write 2 5) ∧ decodeWord 0x4C00000005 = .instr (.writef 3 5) := by decide

theorem witness_IllegalWordsReportOnly :
    (st 1 1 1 1).config.wf = true ∧ ({ st 1 1 1 1 with pending := [.command 0] } : State).pending = .command 0 :: [] ∧
    decodeWord 0 = .illegal .unassignedOpcode := by decide

theorem witness_TransportIsLittleEndian :
    4 < 5 ∧ wordOfBytes [0xFF, 0xFF, 0xFF, 0xFF, 0x44] = some 0x44FFFFFFFF := by decide

theorem witness_ShortTransferDoesNothing :
    (st 1 1 1 1).config.wf = true ∧ ([] : List Byte).length < 5 ∧ ([1, 2, 3, 4] : List Byte).length < 5 ∧
    ({ st 1 1 1 1 with pending := [.bytes [1, 2, 3, 4]] } : State).pending = .bytes [1, 2, 3, 4] :: [] := by decide

theorem witness_StepRunsTheDecodedCommand :
    ({ st 1 1 1 1 with pending := [.command 0x2000000010] } : State).pending = .command 0x2000000010 :: [] ∧
    decodeWord 0x2000000010 = .instr (.setres 16) ∧
    ({ st 1 1 1 1 with pending := [.bytes [16, 0, 0, 0, 0x20]] } : State).pending = .bytes [16, 0, 0, 0, 0x20] :: [] ∧
    decodeBytes [16, 0, 0, 0, 0x20] = some (.instr (.setres 16)) := by decide

theorem witness_ReadHasNoSideEffect :
    (st 1 1 1 1).config.wf = true ∧ ({ st 1 1 1 1 with pending := [.read 7] } : State).pending = .read 7 :: [] := by decide

theorem witness_ReadsSeeCompletedCommandsOnly :
    (∃ t u, step { st 15 0 1 2 with pending := [.command 0x2000000010, .read 1] } = .next t ∧ step t = .next u) ∧
    (∃ t u, step { st 15 0 1 2 with pending := [.read 1, .command 0x2000000010] } = .next t ∧ step t = .next u) :=
  ⟨⟨_, _, rfl, rfl⟩, ⟨_, _, rfl, rfl⟩⟩

theorem witness_ResetLeavesTheResetState :
    (st 9 7 1 2).config.wf = true ∧
    ({ st 9 7 1 2 with pending := [.reset (some 0x1000004E20), .read 0] } : State).pending = .reset (some 0x1000004E20) :: [.read 0] := by
  decide

theorem witness_IdleStepKeepsTheState : (st 9 7 1 2).config.wf = true ∧ (st 9 7 1 2).pending = [] := by decide

theorem witness_BrokenConfigurationIsRefused : (State.resetOf { cfg with div := [8, 1] }).config.wf = false := by decide

theorem witness_CandidateIsExactAndSigned : 1 ≤ 1 ∧ cfg.clkHz / 1000000 * 0 < 1 := by decide

/-- FirstFit at the first divider's upper boundary, at the second divider just past it, and no fit at p = 0. -/
theorem witness_InitFollowsItsPseudocode :
    cfg.wf = true ∧ (FirstFit cfg 4096 0 1 ∧ ((65535 : Nat) : Int) = candOf cfg 4096 1) ∧
    (FirstFit cfg 4097 1 8 ∧ ((8193 : Nat) : Int) = candOf cfg 4097 8) ∧ (∀ d ∈ cfg.div, ¬ Fits cfg 0 d) := by
  refine ⟨by decide, ⟨⟨rfl, by simp [Fits, candOf, cfg], by omega⟩, by decide⟩, ⟨⟨rfl, by simp [Fits, candOf, cfg], ?_⟩, by decide⟩, ?_⟩
  · intro j e hj he
    obtain rfl : j = 0 := by omega
    obtain rfl : 1 = e := by simpa [cfg] using he
    simp [Fits, candOf, cfg]
  · simp [Fits, candOf, cfg]

theorem witness_InitChoosesTheFinestDivider : ∃ t, exec (.init 4097) (st 9 7 1 2) = .next t ∧ t.result = 1 := ⟨_, rfl, rfl⟩

theorem witness_InitSucceedsWhereTheLargestDividerFits :
    cfg.wf = true ∧ cfg.div.getLast? = some 1024 ∧ Fits cfg 4194367 1024 ∧ cfg.clkHz = 16000000 ∧ cfg.div = [1, 8, 64, 256, 1024] := by
  refine ⟨by decide, rfl, by simp [Fits, candOf, cfg], rfl, rfl⟩

theorem witness_ReferenceSelectionBands :
    cfg.clkHz = 16000000 ∧ cfg.div = [1, 8, 64, 256, 1024] ∧ 0 < 2 ^ 32 ∧ (1 ≤ 4096 ∧ 4096 ≤ 4096) ∧ (4097 ≤ 32768 ∧ 32768 ≤ 32768) ∧
    (32769 ≤ 262147 ∧ 262147 ≤ 262147) ∧ (262148 ≤ 1048591 ∧ 1048591 ≤ 1048591) ∧ (1048592 ≤ 4194367 ∧ 4194367 ≤ 4194367) ∧
    (4194368 ≤ 4294967295 ∧ 4294967295 < 2 ^ 32) := by decide

theorem witness_RealisedPeriodIsWithinOneTick : ∃ t, exec (.init 32769) (st 9 7 1 2) = .next t ∧ t.result = 1 := ⟨_, rfl, rfl⟩

theorem witness_DegenerateAndLongPeriodsFail :
    cfg.wf = true ∧ cfg.div.head? = some 1 ∧ cfg.div.getLast? = some 1024 ∧ 65535 < candOf cfg 4194368 1024 ∧
    ({ cfg with clkHz := 1000000, div := [64] } : Config).wf = true ∧ ({ cfg with clkHz := 1000000, div := [64] } : Config).clkMHz * 63 < 64 := by
  decide

theorem witness_GapsNeedARatioAbove65537 :
    ({ cfg with clkHz := 1000000, div := [1, 70000] } : Config).wf = true ∧
    65535 < candOf { cfg with clkHz := 1000000, div := [1, 70000] } 69999 1 ∧
    candOf { cfg with clkHz := 1000000, div := [1, 70000] } 69999 70000 < 0 ∧
    cfg.wf = true ∧ cfg.div.head? = some 1 ∧ cfg.div.getLast? = some 1024 ∧
    (∀ i < 4, ∀ d ∈ cfg.div[i]?, ∀ e ∈ cfg.div[i + 1]?, e ≤ 65537 * d) := by decide

theorem witness_SetresFollowsItsPseudocode : (st 0 7 1 2).config.wf = true ∧ (st 65535 7 1 2).config.wf = true := by decide

theorem witness_SetresRespectsRequestAndTop :
    (∃ t, exec (.setres 16) (st 0 7 1 2) = .next t) ∧ IsFlog2 (st 0 7 1 2).top.toNat 0 ∧
    (∃ t, exec (.setres 16) (st 65535 7 1 2) = .next t) ∧ IsFlog2 (st 65535 7 1 2).top.toNat 15 ∧ 16 ≤ 16 :=
  ⟨⟨_, rfl⟩, .inl ⟨rfl, rfl⟩, ⟨_, rfl⟩, .inr (by decide), le_refl _⟩

theorem witness_WriteFollowsItsPseudocode :
    (st 9 7 1 2).config.wf = true ∧ 2 ≤ 2 ∧ (0 = idOf .a ∧ (st 9 0 1 2).res.toNat = 0) ∧ (1 = idOf .b ∧ (st 9 1 1 2).res.toNat ≠ 0) := by
  decide

theorem witness_WriteRangeMonotonyAndBoundaries :
    (st 15 32767 1 2).config.wf = true ∧ 0 < (st 15 1 1 2).res.toNat ∧ (st 0 3 1 2).top = 0 ∧
    (∃ t, exec (.write (idOf .b) 4) (st 15 7 1 2) = .next t) ∧ (∃ t, exec (.write (idOf .b) 5) (st 15 7 1 2) = .next t) :=
  ⟨by decide, by decide, rfl, ⟨_, rfl⟩, ⟨_, rfl⟩⟩

theorem witness_WriteHasNoMemory :
    (st 15 7 1 2).top = (st 15 7 3 4).top ∧ (st 15 7 1 2).res = (st 15 7 3 4).res ∧
    (∃ t, exec (.write (idOf .a) 3) (st 15 7 1 2) = .next t) ∧ (∃ t, exec (.write (idOf .a) 3) (st 15 7 3 4) = .next t) :=
  ⟨rfl, rfl, ⟨_, rfl⟩, ⟨_, rfl⟩⟩

theorem witness_ZeroResolutionMapsToZero :
    (st 15 0 1 2).config.wf = true ∧ (st 15 0 1 2).res = 0 ∧ ∃ t, exec (.writef 1 9) (st 15 0 1 2) = .next t :=
  ⟨by decide, rfl, ⟨_, rfl⟩⟩

theorem witness_UnknownChannelIsSignalledNoOp : (st 15 0 1 2).config.wf = true ∧ 2 ≤ 2 ∧ 2 ≤ 3 := by decide

theorem witness_WritefFollowsItsPseudocode :
    (st 39999 0 1 2).config.wf = true ∧ 2 ≤ 2 ∧ (0 = idOf .a ∧ 65535 < 0x1A371 * (st 39999 0 1 2).top.toNat / 2 ^ 16) ∧
    (1 = idOf .b ∧ 0x1A370 * (st 39999 0 1 2).top.toNat / 2 ^ 16 ≤ 65535) := by decide

theorem witness_WritefSaturatesExactlyAtTheRegisterWidth :
    (st 1 0 1 2).config.wf = true ∧ 0xFFFFFFFF < 2 ^ 32 ∧ (st 65535 0 1 2).top.toNat = 65535 ∧ (st 39999 0 1 2).top.toNat = 39999 ∧
    (st 15999 0 1 2).top.toNat = 15999 ∧ (st 1 0 1 2).top.toNat ≤ 1 ∧ 2 ^ 32 ≤ 0x10002 * (st 65535 0 1 2).top.toNat ∧
    59998 = 0x18000 * (st 39999 0 1 2).top.toNat / 2 ^ 16 ∧ (st 39999 0 1 2).top.toNat < 59998 := by decide

theorem witness_WritefIgnoresTheResolution :
    (∃ t, exec (.writef 0 0x10000) (st 39999 0 1 2) = .next t) ∧ 0 = idOf .a ∧ 0x10000 * (st 39999 0 1 2).top.toNat / 2 ^ 16 ≤ 65535 :=
  ⟨⟨_, rfl⟩, by decide⟩

theorem witness_WriteAndWritefAgreeExactlyAtTheEnds :
    (st 39999 32767 1 2).config.wf = true ∧ (st 39999 32767 1 2).res.toNat = 2 ^ 15 - 1 ∧ (st 39999 1 1 2).res.toNat = 2 ^ 1 - 1 ∧
    (0 ≤ 32767 ∧ 0 * 32767 = 0 * 2 ^ 16) ∧ (32767 ≤ (st 39999 32767 1 2).res.toNat ∧ 2 ^ 16 * 32767 = 32767 * 2 ^ 16) := by decide

theorem witness_ErrorPriority :
    rsvField 0x3E00000001 ≠ 0 ∧
    (∃ t, step { st 39999 0 1 2 with pending := [.command 0x3E00000001] } = .next t) ∧
    (∃ t, step { st 39999 0 1 2 with pending := [.command 0x1000000001] } = .next t) ∧
    (∃ t, exec (.write 3 5) (st 39999 0 1 2) = .next t) ∧
    (∃ t, exec (.write 1 5) (st 39999 0 1 2) = .next t ∧ t.code = 3 ∧ 1 < 2 ∧ (st 39999 0 1 2).res = 0) ∧
    (∃ t, exec (.writef 0 0x1A371) (st 39999 0 1 2) = .next t) ∧
    (∃ t, exec (.init 0) (st 39999 0 1 2) = .next t) ∧ (∃ t, exec (.setres 0) (st 39999 0 1 2) = .next t) :=
  ⟨by decide, ⟨_, rfl⟩, ⟨_, rfl⟩, ⟨_, rfl⟩, ⟨_, rfl, rfl, by decide, rfl⟩, ⟨_, rfl⟩, ⟨_, rfl⟩, ⟨_, rfl⟩⟩

theorem witness_ResultOfEachCommand :
    (∃ t, exec (.init 1) (st 39999 0 1 2) = .next t) ∧ (∃ t, exec (.setres 9) (st 39999 0 1 2) = .next t) ∧
    (∃ t, exec (.write 0 9) (st 39999 0 1 2) = .next t) ∧ headWord { st 39999 0 1 2 with pending := [.command 0] } = some 0 ∧
    decodeWord 0 = .illegal .unassignedOpcode ∧ (∃ t, step { st 39999 0 1 2 with pending := [.command 0] } = .next t) :=
  ⟨⟨_, rfl⟩, ⟨_, rfl⟩, ⟨_, rfl⟩, rfl, by decide, ⟨_, rfl⟩⟩

theorem witness_OutcomeRegistersAreNeverRead : headWord { st 9 7 1 2 with pending := [.bytes [0, 0, 0, 0, 0x10]] } = some 0x1000000000 := by
  decide

theorem witness_InitFrame :
    (∃ t, exec (.init 1) (st 9 7 1 2) = .next t ∧ t.code = 0) ∧ (∃ t, exec (.init 0) (st 9 7 1 2) = .next t ∧ t.code ≠ 0) :=
  ⟨⟨_, rfl, rfl⟩, ⟨_, rfl, by decide⟩⟩

theorem witness_SetresFrame : ∃ t, exec (.setres 2) (st 9 7 1 2) = .next t := ⟨_, rfl⟩

theorem witness_DutyWriteFrame :
    (∃ t, exec (.write 0 5) (st 9 7 1 2) = .next t) ∧ (∃ t, exec (.writef 1 5) (st 9 7 1 2) = .next t) ∧
    (∃ t, exec (.write 2 5) (st 9 7 1 2) = .next t) := ⟨⟨_, rfl⟩, ⟨_, rfl⟩, ⟨_, rfl⟩⟩

theorem witness_RepeatedCommandLeavesTheSameState : ∃ t, exec (.write 0 5) (st 9 7 1 2) = .next t := ⟨_, rfl⟩

theorem witness_EveryStepCompletes : (st 9 7 1 2).config.wf = true := by decide

/-- A reset step that clears CFG and OE, and command steps that change TOP, CTRL, RES, CMPA, CMPB, CODE and RESULT. -/
theorem witness_OnlyTheNamedCommandsWriteARegister :
    (∃ t, step { st 9 7 1 2 with pending := [.reset none] } = .next t ∧ t.top ≠ 9 ∧ t.ctrl.cfg = 0 ∧ t.ctrl.oe = 0) ∧
    (∃ t, step { st 9 7 1 2 with pending := [.command 0x1000000001] } = .next t ∧ t.top ≠ 9 ∧ t.ctrl ≠ (st 9 7 1 2).ctrl ∧ t.result ≠ 0) ∧
    (∃ t, step { st 9 7 1 2 with pending := [.command 0x2000000001] } = .next t ∧ t.res ≠ 7) ∧
    (∃ t, step { st 9 7 1 2 with pending := [.command 0x3000000005] } = .next t ∧ t.cmpA ≠ 1) ∧
    (∃ t, step { st 9 7 1 2 with pending := [.command 0x4400010000] } = .next t ∧ t.cmpB ≠ 2) :=
  ⟨⟨_, rfl, by decide, rfl, rfl⟩, ⟨_, rfl, by decide, by decide, by decide⟩, ⟨_, rfl, by decide⟩, ⟨_, rfl, by decide⟩, ⟨_, rfl, by decide⟩⟩

theorem witness_HistoryGrowsByTheCommandsEvent :
    (∃ t, step { st 9 7 1 2 with pending := [.command 0x1000000001] } = .next t) ∧
    ¬ TakesReset { st 9 7 1 2 with pending := [.command 0x1000000001] } := by
  refine ⟨⟨_, rfl⟩, ?_⟩
  rintro ⟨a, rest, h⟩
  cases h

/-- The invariant holds in a configured state with a history, and a step leaves it. -/
theorem witness_StepKeepsTheInvariant :
    Inv { State.resetOf cfg with
      top := 39999, ctrl := { cs := 2, cfg := 1, oe := 1 }, result := 1, history := [.commit 7 0 39999 2 1], pending := [.command 0x2000000010] } ∧
    ∃ t, step { State.resetOf cfg with
      top := 39999, ctrl := { cs := 2, cfg := 1, oe := 1 }, result := 1, history := [.commit 7 0 39999 2 1],
      pending := [.command 0x2000000010] } = .next t := by
  refine ⟨⟨by decide, ⟨0, by decide, rfl⟩, fun h => absurd h (by decide), fun _ => by decide, by decide, ?_, rfl⟩, ⟨_, rfl⟩⟩
  intro ev h
  obtain rfl : ev = .commit 7 0 39999 2 1 := by simpa using h
  simp [LegalEvent, cfg, State.resetOf]

/-- A run from reset reaches a configured state, and a WRITE is the next command of a reachable state. -/
theorem witness_ReachableStatesMeetTheSixInvariants :
    (∃ s, Reachable s ∧ s.ctrl.cfg = 0 ∧ RunsCommand s (.write (idOf .b) 1)) ∧ (∃ s, Reachable s ∧ s.ctrl.cfg = 1) := by
  refine ⟨⟨_, .start cfg [.command 0x3400000001] (by decide), rfl, _, rfl, by decide⟩, ?_⟩
  exact ⟨_, .step _ _ (.start cfg [.command 0x1000004E20] (by decide)) rfl, rfl⟩

theorem witness_PortLinesMirrorTheRegisters : ∃ s, Reachable s ∧ s.history ≠ [] ∧ s.ctrl.cfg = 1 :=
  ⟨_, .step _ _ (.start cfg [.command 0x1000004E20] (by decide)) rfl, by decide, rfl⟩

theorem witness_ReinitLeavesResolutionAndComparesStale :
    (st 39999 0 1 2).config.clkHz = 16000000 ∧ (st 39999 0 1 2).config.div = [1, 8, 64, 256, 1024] ∧ (st 39999 0 1 2).top = 39999 := by
  decide

theorem witness_AssemblerRefusesOperandsOutOfRange :
    assemble (.command (.write 3 4294967295)) = some 0x3CFFFFFFFF ∧ assemble (.word40 (2 ^ 40 - 1)) = some 0xFFFFFFFFFF := by decide

theorem witness_WritefrRoundsTowardZero : assemble (.writefr 1 15 1) = some 0x4400018000 := by decide

end Sys2Proof.Tests
end

section
/-! Proofs of the statements of 00_scope.md: every step keeps the invariant, what a broken configuration does, the reference selection
bands, and the completion of every step. -/

namespace Sys2Proof.Safety

open Sys2Proof.Machine

/-! The invariant under each named update of the state (R33, R39). -/

/-- The reset state of any accepted configuration meets the invariant (R201). -/
theorem inv_resetOf {c : Config} (h : c.wf = true) : Inv (State.resetOf c) where
  config_wf := h
  res_mask := ⟨0, by decide, rfl⟩
  unconfigured := fun _ => ⟨rfl, rfl, rfl⟩
  configured := fun hc => absurd hc (by simp [Ctrl.atReset])
  code_known := Nat.zero_le _
  events_legal := by simp
  lines_mirror := rfl

section update
variable {s : State} (h : Inv s)
include h

/-- The invariant does not speak of the host's lists. -/
theorem inv_hostLists (p : List HostAccess) (r : List Reg) : Inv { s with pending := p, replies := r } :=
  { h with }

theorem inv_finish (k : StatusCode) (r : Reg) : Inv (s.finish k r) :=
  { h with code_known := statusBits_le k }

theorem inv_raise (k : StatusCode) : Inv (s.raise k) := inv_finish h k 0

/-- An event appended to the history keeps the clause on the port events when it is legal itself (R33). -/
theorem events_legal_append {ev : TimerEvent} (hev : LegalEvent s.config ev) :
    ∀ e ∈ s.history ++ [ev], LegalEvent s.config e := by
  intro e he
  rcases List.mem_append.1 he with he | he
  · exact h.events_legal e he
  · exact List.mem_singleton.1 he ▸ hev

/-- A compare write and its SetCompare event move register and line together (R33, R57). -/
theorem inv_drive (c : Channel) (v : Reg) : Inv (s.drive c v) where
  config_wf := by simpa using h.config_wf
  res_mask := by simpa using h.res_mask
  unconfigured := by simpa using h.unconfigured
  configured := by simpa using h.configured
  code_known := by simpa using h.code_known
  events_legal := by
    simp only [State.drive_history, State.drive_config]
    exact events_legal_append h trivial
  lines_mirror := by
    rw [State.drive_history, replayLines_append, h.lines_mirror]
    cases c <;> rfl

/-- The code of a divider of the table fits CS (R6, D13), so CS holds it unreduced. -/
theorem clockSelect_toNat {i : Nat} (hi : i < s.config.div.length) : (BitVec.ofNat 3 (i + 1)).toNat = i + 1 := by
  obtain ⟨⟨-, -, hlen⟩, -⟩ := (config_wf_iff _).1 h.config_wf
  rw [BitVec.toNat_ofNat]
  omega

/-- An accepted divider: the Commit event drives the lines the written registers mirror (R33, R56, R104). -/
theorem inv_commitPeriod {i : Nat} (hi : i < s.config.div.length) (cand : Nat) : Inv (s.commitPeriod i cand) where
  config_wf := h.config_wf
  res_mask := h.res_mask
  unconfigured := fun hc => absurd hc (by simp)
  configured := fun _ => by simp [clockSelect_toNat h hi]; omega
  code_known := Nat.zero_le _
  events_legal := by
    simp only [State.commitPeriod_history, State.commitPeriod_config]
    exact events_legal_append h (by simp [LegalEvent, clockSelect_toNat h hi]; omega)
  lines_mirror := by
    rw [State.commitPeriod_history, replayLines_append, h.lines_mirror]
    rfl

/-- SETRES leaves a mask of at most 15 ones in RES (R121, R123). -/
theorem inv_negotiate (bits : Nat) : Inv (s.negotiate bits) :=
  have hk := negotiatedWidth_le_fifteen bits s.top
  { h with
    res_mask := ⟨_, hk, by
      rw [State.negotiate_res, BitVec.toNat_ofNat, Nat.mod_eq_of_lt (mask_lt hk)]⟩
    code_known := Nat.zero_le _ }

/-- Every command keeps the invariant. -/
theorem inv_effectOf (i : Instr) : Inv (effectOf i s) := by
  cases i with
  | init p =>
    rcases solvePeriod_cases s p with ⟨i, t, hf, he⟩ | ⟨-, he⟩ <;> rw [effectOf, he]
    · exact inv_commitPeriod h (findDivider_bounds hf).1 t
    · exact inv_raise h _
  | setres bits => exact inv_negotiate h bits
  | write ch d =>
    rcases writeDuty_cases s ch d with ⟨-, he⟩ | ⟨c, -, -, he⟩ | ⟨c, -, -, he⟩ <;> rw [effectOf, he]
    · exact inv_raise h _
    · exact inv_raise (inv_drive h c _) _
    · exact inv_finish (inv_drive h c _) _ _
  | writef ch f =>
    rcases writeFraction_cases s ch f with ⟨-, he⟩ | ⟨c, -, -, he⟩ | ⟨c, -, -, he⟩ <;> rw [effectOf, he]
    · exact inv_raise h _
    · exact inv_raise (inv_drive h c _) _
    · exact inv_finish (inv_drive h c _) _ _

end update

/-- A step that takes the reset input leaves the reset state, with the host's lists as they are (R200, log 7). -/
theorem stepEffect_of_takesReset {s : State} (h : TakesReset s) :
    stepEffect s = { State.resetOf s.config with pending := s.pending.tail, replies := s.replies } := by
  obtain ⟨a, rest, hp⟩ := h
  simp [stepEffect, hp, accessEffect]

/-- Every step's effect keeps the invariant, whichever access it takes. -/
theorem inv_stepEffect {s : State} (h : Inv s) : Inv (stepEffect s) := by
  have htaken : Inv { s with pending := s.pending.tail } := inv_hostLists h _ s.replies
  rcases stepEffect_cases s with hreset | ⟨i, -, he⟩ | ⟨-, he⟩ | ⟨r, p, he⟩
  · rw [stepEffect_of_takesReset hreset]
    exact inv_hostLists (inv_resetOf h.config_wf) _ _
  · rw [he]
    exact inv_effectOf htaken i
  · rw [he]
    exact inv_raise htaken .illegalCommand
  · rw [he]
    exact inv_hostLists h p r

/-- Settles O45: a completed step is its effect, and each effect a step can have keeps the invariant. -/
theorem stepKeepsTheInvariant : Obligations.StepKeepsTheInvariant := by
  intro s t h hs
  obtain ⟨-, rfl⟩ := step_eq_next.1 hs
  exact inv_stepEffect h

/-! Which configurations are refused (R6, R8). -/

/-- A list ascends strictly exactly when each entry is below every later one. -/
theorem pairwise_lt_iff_getElem? (ds : List Nat) :
    ds.Pairwise (· < ·) ↔ ∀ (i j d e : Nat), i < j → ds[i]? = some d → ds[j]? = some e → d < e := by
  rw [List.pairwise_iff_getElem]
  constructor
  · intro h i j d e hij hd he
    obtain ⟨hi, rfl⟩ := List.getElem?_eq_some_iff.1 hd
    obtain ⟨hj, rfl⟩ := List.getElem?_eq_some_iff.1 he
    exact h i j hi hj hij
  · intro h i j hi hj hij
    exact h i j _ _ hij (List.getElem?_eq_getElem hi) (List.getElem?_eq_getElem hj)

/-- Settles O15: the check is R6's constraints, and the configuration guard stands around every step and command. -/
theorem brokenConfigurationIsRefused : Obligations.BrokenConfigurationIsRefused := by
  refine ⟨fun c => ?_, fun s h => ⟨?_, fun i => ?_⟩⟩
  · rw [config_wf_iff, pairwise_lt_iff_getElem?, Nat.dvd_iff_mod_eq_zero]
    simp only [and_assoc]
  · rw [step_eq_inConfig, inConfig_of_not_wf h]
  · rw [exec_eq_inConfig, inConfig_of_not_wf h]

/-! INIT through the first fit of R102, and the reference configuration's bands (R108). -/

/-- INIT with a first fit commits its divider and its candidate (R103, R104). -/
theorem exec_init_of_firstFit {s : State} {p i d t : Nat} (hwf : s.config.wf = true) (hf : FirstFit s.config p i d)
    (ht : (t : Int) = candOf s.config p d) : exec (.init p) s = .next (committed s i t) := by
  rw [exec_eq_next, effectOf, State.solvePeriod, findDivider_eq_some_iff_firstFit.2 ⟨d, hf, ht⟩]
  exact ⟨hwf, rfl⟩

/-- INIT without a fitting divider rolls back and reports code 1 (R105). -/
theorem exec_init_of_no_fit {s : State} {p : Nat} (hwf : s.config.wf = true) (hf : ∀ d ∈ s.config.div, ¬ Fits s.config p d) :
    exec (.init p) s = .next (onlyReports s 1) := by
  rw [exec_eq_next, effectOf, State.solvePeriod, findDivider_eq_none_iff.2 hf]
  exact ⟨hwf, rfl⟩

/-- A candidate fits exactly when the product is at least the divider and below 65537 times it (R101, R102). -/
theorem fits_iff_product {c : Config} {p d : Nat} (hd : 1 ≤ d) : Fits c p d ↔ d ≤ c.clkMHz * p ∧ c.clkMHz * p < 65537 * d := by
  have hpos := Nat.div_pos_iff (a := c.clkMHz * p) (b := d)
  have hlt := Nat.div_lt_iff_lt_mul (x := c.clkMHz * p) (y := 65537) hd
  unfold Fits candOf
  rw [Config.clkMHz] at hpos hlt ⊢
  omega

section reference
variable {s : State} (hclk : s.config.clkHz = 16000000) (hdiv : s.config.div = [1, 8, 64, 256, 1024])
include hclk

theorem reference_fits_iff {p d : Nat} (hd : 1 ≤ d) : Fits s.config p d ↔ d ≤ 16 * p ∧ 16 * p < 65537 * d := by
  rw [fits_iff_product hd, Config.clkMHz, hclk]

include hdiv

theorem reference_wf : s.config.wf = true := by
  rw [config_wf_iff, hclk, hdiv]
  decide

omit hclk in
/-- The smallest and the largest divider of the table (R9). -/
theorem reference_divider_range : ∀ d ∈ s.config.div, 1 ≤ d ∧ d ≤ 1024 := by
  rw [hdiv]
  decide

/-- One band of R108: the divider's candidate fits and the product is too large for every earlier divider. -/
theorem exec_init_reference_band {p i d t : Nat} (hd : ([1, 8, 64, 256, 1024] : List Nat)[i]? = some d)
    (hfit : d ≤ 16 * p ∧ 16 * p < 65537 * d) (hearlier : ∀ e ∈ ([1, 8, 64, 256, 1024] : List Nat).take i, 65537 * e ≤ 16 * p)
    (ht : t = 16 * p / d - 1) : exec (.init p) s = .next (committed s i t) := by
  have hpos : ∀ e ∈ s.config.div, 1 ≤ e := fun e he => (reference_divider_range hdiv e he).1
  rw [← hdiv] at hd hearlier
  have hd1 : 1 ≤ d := hpos d (List.mem_of_getElem? hd)
  refine exec_init_of_firstFit (d := d) (reference_wf hclk hdiv) ⟨hd, (reference_fits_iff hclk hd1).2 hfit, ?_⟩ ?_
  · intro j e hj he hfe
    have hlow := hearlier e (List.mem_of_getElem? (by rw [List.getElem?_take_of_lt hj, he]))
    have hhigh := ((reference_fits_iff hclk (hpos e (List.mem_of_getElem? he))).1 hfe).2
    omega
  · have hmhz : s.config.clkHz / 1000000 = 16 := by rw [hclk]
    have hquot : 1 ≤ 16 * p / d := Nat.div_pos hfit.1 hd1
    rw [ht, candOf, hmhz]
    omega

theorem exec_init_reference_fails {p : Nat} (hp : p = 0 ∨ 4194368 ≤ p) : exec (.init p) s = .next (onlyReports s 1) := by
  refine exec_init_of_no_fit (reference_wf hclk hdiv) fun d hd hfit => ?_
  obtain ⟨hpos, hmax⟩ := reference_divider_range hdiv d hd
  obtain ⟨hlow, hhigh⟩ := (reference_fits_iff hclk hpos).1 hfit
  omega

end reference

/-- Settles O20: each band is the range of periods in which its divider's candidate fits and the earlier ones are too large. -/
theorem referenceSelectionBands : Obligations.ReferenceSelectionBands := by
  intro s p hclk hdiv _
  refine ⟨fun hp => exec_init_reference_fails hclk hdiv (.inl hp), ?_, ?_, ?_, ?_, ?_,
    fun hp => exec_init_reference_fails hclk hdiv (.inr hp)⟩
  · exact fun ⟨hlow, hhigh⟩ => ⟨exec_init_reference_band hclk hdiv (d := 1) rfl (by omega) (by simp) (by omega), by omega, by omega⟩
  · exact fun ⟨hlow, hhigh⟩ => ⟨exec_init_reference_band hclk hdiv (d := 8) rfl (by omega) (by simp; omega) (by omega), by omega, by omega⟩
  · exact fun ⟨hlow, hhigh⟩ => ⟨exec_init_reference_band hclk hdiv (d := 64) rfl (by omega) (by simp; omega) (by omega), by omega, by omega⟩
  · exact fun ⟨hlow, hhigh⟩ => ⟨exec_init_reference_band hclk hdiv (d := 256) rfl (by omega) (by simp; omega) (by omega), by omega, by omega⟩
  · exact fun ⟨hlow, hhigh⟩ => ⟨exec_init_reference_band hclk hdiv (d := 1024) rfl (by omega) (by simp; omega) (by omega), by omega, by omega⟩

/-! Every step completes (R170, R207). -/

/-- No access touches the accesses still pending or the configuration. -/
theorem accessEffect_keeps_pending_and_config (a : HostAccess) (s : State) :
    (accessEffect a s).pending = s.pending ∧ (accessEffect a s).config = s.config := by
  cases a with
  | command w => exact (wordEffect_keeps_model_fields w s).2
  | bytes bs =>
    rw [accessEffect]
    cases wordOfBytes bs with
    | some w => exact (wordEffect_keeps_model_fields w s).2
    | none => exact ⟨rfl, rfl⟩
  | read n => exact ⟨rfl, rfl⟩
  | reset abandoned => exact ⟨rfl, rfl⟩

/-- A step takes the oldest access, if there is one, and keeps the configuration. -/
theorem stepEffect_pending_and_config (s : State) :
    (stepEffect s).pending = s.pending.tail ∧ (stepEffect s).config = s.config := by
  cases hp : s.pending with
  | nil => simp [stepEffect, hp]
  | cons a rest =>
    rw [stepEffect, hp]
    exact accessEffect_keeps_pending_and_config a { s with pending := rest }

/-- Settles O42: in an accepted configuration a step answers its effect, which takes one access. -/
theorem everyStepCompletes : Obligations.EveryStepCompletes := by
  intro s h
  exact ⟨stepEffect s, step_eq_next.2 ⟨h, rfl⟩, stepEffect_pending_and_config s⟩

end Sys2Proof.Safety
end

section
/-! Proofs of the statements of 10_state.md: what the registers hold and read as, which access can write which of them, how the history
grows, and what every reachable state satisfies. -/

namespace Sys2Proof.Safety

open Sys2Proof.Machine

/-! Everything a command and a step can do, through the named updates of the state. -/

/-- A duty command to an unknown channel reports it; to a known one it drives the channel and finishes with RESULT 0 (R141, R152). -/
theorem effectOf_duty_cases {i : Instr} {ch x : Nat} (hi : i = .write ch x ∨ i = .writef ch x) (s : State) :
    (2 ≤ ch ∧ effectOf i s = s.raise .unknownChannel) ∨
    (∃ c v k, ch = idOf c ∧ effectOf i s = (s.drive c v).finish k 0) := by
  rcases hi with rfl | rfl
  · rcases writeDuty_cases s ch x with h | ⟨c, hc, -, he⟩ | ⟨c, hc, -, he⟩
    · exact .inl h
    · exact .inr ⟨c, _, _, eq_idOf_of_channelOfId hc, he⟩
    · exact .inr ⟨c, _, _, eq_idOf_of_channelOfId hc, he⟩
  · rcases writeFraction_cases s ch x with h | ⟨c, hc, -, he⟩ | ⟨c, hc, -, he⟩
    · exact .inl h
    · exact .inr ⟨c, _, _, eq_idOf_of_channelOfId hc, he⟩
    · exact .inr ⟨c, _, _, eq_idOf_of_channelOfId hc, he⟩

/-- The four things a command can do: commit a period, set a resolution, drive a channel, or only report an error (R185). -/
theorem effectOf_cases (i : Instr) (s : State) :
    (∃ p j cand, i = .init p ∧ effectOf i s = s.commitPeriod j cand) ∨
    (∃ bits, i = .setres bits ∧ effectOf i s = s.negotiate bits) ∨
    (∃ c x v k, (i = .write (idOf c) x ∨ i = .writef (idOf c) x) ∧ effectOf i s = (s.drive c v).finish k 0) ∨
    (∃ k, effectOf i s = s.raise k) := by
  have duty {ch x : Nat} (hi : i = .write ch x ∨ i = .writef ch x) :
      (∃ c x v k, (i = .write (idOf c) x ∨ i = .writef (idOf c) x) ∧ effectOf i s = (s.drive c v).finish k 0) ∨
      (∃ k, effectOf i s = s.raise k) := by
    rcases effectOf_duty_cases hi s with ⟨-, he⟩ | ⟨c, v, k, rfl, he⟩
    · exact .inr ⟨_, he⟩
    · exact .inl ⟨c, x, v, k, hi, he⟩
  cases i with
  | init p =>
    rcases solvePeriod_cases s p with ⟨j, cand, -, he⟩ | ⟨-, he⟩
    · exact .inl ⟨p, j, cand, rfl, he⟩
    · exact .inr (.inr (.inr ⟨_, he⟩))
  | setres bits => exact .inr (.inl ⟨bits, rfl, rfl⟩)
  | write ch d => exact .inr (.inr (duty (.inl rfl)))
  | writef ch f => exact .inr (.inr (duty (.inr rfl)))

/-- A step that runs a command has a command write at the head. -/
theorem RunsCommand.headWord_ne_none {s : State} {i : Instr} (h : RunsCommand s i) : headWord s ≠ none := by
  obtain ⟨w, hw, -⟩ := h
  simp [hw]

/-- A step that runs a command has the command's effect, once its access is taken (R76, log 5). -/
theorem stepEffect_of_runsCommand {s : State} {i : Instr} (h : RunsCommand s i) :
    stepEffect s = effectOf i { s with pending := s.pending.tail } := by
  obtain ⟨w, hw, hd⟩ := h
  rw [stepEffect_of_headWord hw, wordEffect, hd]

/-- Everything a completed step can do to the registers and the history: take reset, one of the four things a command can do (an illegal word
only reports an error too), or touch the host's lists only. -/
theorem step_cases {s t : State} (h : step s = .next t) :
    TakesReset s ∨
    (∃ p j cand, RunsCommand s (.init p) ∧ t = { s with pending := s.pending.tail }.commitPeriod j cand) ∨
    (∃ bits, RunsCommand s (.setres bits) ∧ t = { s with pending := s.pending.tail }.negotiate bits) ∨
    (∃ c x v k, (RunsCommand s (.write (idOf c) x) ∨ RunsCommand s (.writef (idOf c) x)) ∧
      t = ({ s with pending := s.pending.tail }.drive c v).finish k 0) ∨
    (headWord s ≠ none ∧ ∃ k, t = { s with pending := s.pending.tail }.raise k) ∨
    (∃ p r, t = { s with pending := p, replies := r }) := by
  obtain ⟨-, rfl⟩ := step_eq_next.1 h
  rcases stepEffect_cases s with hreset | ⟨i, hi, he⟩ | ⟨hw, he⟩ | ⟨r, p, he⟩
  · exact .inl hreset
  · rw [he]
    rcases effectOf_cases i { s with pending := s.pending.tail } with
      ⟨p, j, cand, rfl, ho⟩ | ⟨bits, rfl, ho⟩ | ⟨c, x, v, k, hd, ho⟩ | ⟨k, ho⟩
    · exact .inr (.inl ⟨p, j, cand, hi, ho⟩)
    · exact .inr (.inr (.inl ⟨bits, hi, ho⟩))
    · exact .inr (.inr (.inr (.inl ⟨c, x, v, k, hd.imp (by rintro rfl; exact hi) (by rintro rfl; exact hi), ho⟩)))
    · exact .inr (.inr (.inr (.inr (.inl ⟨hi.headWord_ne_none, k, ho⟩))))
  · exact .inr (.inr (.inr (.inr (.inl ⟨hw, .illegalCommand, he⟩))))
  · exact .inr (.inr (.inr (.inr (.inr ⟨p, r, he⟩))))

/-! Which access can write which register, and how the history grows (R22, R33, R203). -/

/-- Outside reset no step clears CFG or OE: an INIT that writes CTRL sets both (R28, R29, R203). -/
theorem step_keeps_cfg_and_oe {s t : State} (h : step s = .next t) (hreset : ¬ TakesReset s) :
    (s.ctrl.cfg = 1 → t.ctrl.cfg = 1) ∧ (s.ctrl.oe = 1 → t.ctrl.oe = 1) := by
  rcases step_cases h with
    hr | ⟨p, j, cand, -, rfl⟩ | ⟨bits, -, rfl⟩ | ⟨c, x, v, k, -, rfl⟩ | ⟨-, k, rfl⟩ | ⟨p, r, rfl⟩
  · exact absurd hr hreset
  · exact ⟨fun _ => rfl, fun _ => rfl⟩
  all_goals simp

/-- Settles O43: outside reset each thing a step can do writes the registers its command owns, and no other. -/
theorem onlyTheNamedCommandsWriteARegister : Obligations.OnlyTheNamedCommandsWriteARegister := by
  intro s t h
  by_cases hreset : TakesReset s
  · simp only [hreset, true_or, implies_true, and_self]
  have hbits : ¬ ((s.ctrl.cfg = 1 ∧ t.ctrl.cfg = 0) ∨ (s.ctrl.oe = 1 ∧ t.ctrl.oe = 0)) := by
    obtain ⟨hcfg, hoe⟩ := step_keeps_cfg_and_oe h hreset
    rintro (⟨h1, h0⟩ | ⟨h1, h0⟩)
    · exact absurd (hcfg h1) (by simp [h0])
    · exact absurd (hoe h1) (by simp [h0])
  simp only [hreset, false_or, hbits, false_implies, and_true]
  rcases step_cases h with
    hr | ⟨p, j, cand, hi, rfl⟩ | ⟨bits, hi, rfl⟩ | ⟨c, x, v, k, hi, rfl⟩ | ⟨hw, k, rfl⟩ | ⟨p, r, rfl⟩
  · exact absurd hr hreset
  · have hinit : ∃ p, RunsCommand s (.init p) := ⟨p, hi⟩
    simp [hinit, hi.headWord_ne_none]
  · have hsetres : ∃ bits, RunsCommand s (.setres bits) := ⟨bits, hi⟩
    simp [hsetres, hi.headWord_ne_none]
  · have hduty : ∃ x, RunsCommand s (.write (idOf c) x) ∨ RunsCommand s (.writef (idOf c) x) := ⟨x, hi⟩
    have hw : headWord s ≠ none := hi.elim (·.headWord_ne_none) (·.headWord_ne_none)
    cases c <;> rw [idOf] at hduty <;> simp [hduty, hw]
  · simp [hw]
  · simp

/-- Settles O44: only a commit and a driven channel append an event, and each appends its own. -/
theorem historyGrowsByTheCommandsEvent : Obligations.HistoryGrowsByTheCommandsEvent := by
  intro s t h hreset
  rcases step_cases h with
    hr | ⟨p, j, cand, hi, rfl⟩ | ⟨bits, -, rfl⟩ | ⟨c, x, v, k, hi, rfl⟩ | ⟨-, k, rfl⟩ | ⟨p, r, rfl⟩
  · exact absurd hr hreset
  · exact .inr (.inl ⟨p, hi, rfl, rfl⟩)
  · exact .inl rfl
  · exact .inr (.inr ⟨c, x, hi, by simp⟩)
  · exact .inl rfl
  · exact .inl rfl

/-- Settles O40: a known channel is driven and the other one is not touched; an unknown channel is only reported. -/
theorem dutyWriteFrame : Obligations.DutyWriteFrame := by
  intro s t ch x h
  obtain ⟨i, hi, he⟩ : ∃ i, (i = .write ch x ∨ i = .writef ch x) ∧ exec i s = .next t :=
    h.elim (fun h => ⟨_, .inl rfl, h⟩) (fun h => ⟨_, .inr rfl, h⟩)
  obtain ⟨-, rfl⟩ := exec_eq_next.1 he
  rcases effectOf_duty_cases hi s with ⟨hch, he⟩ | ⟨c, v, k, rfl, he⟩ <;> rw [he]
  · have h0 : ch ≠ 0 := by omega
    have h1 : ch ≠ 1 := by omega
    simp [h0, h1]
  · cases c <;> simp [idOf]

/-! What the commands leave in RES, RESULT and the compare registers (R31, R40, R124, R156). -/

/-- RES after SETRES, unreduced: its mask fits the register (R123). -/
theorem negotiate_res_toNat (s : State) (bits : Nat) :
    (s.negotiate bits).res.toNat = 2 ^ negotiatedWidth bits s.top.toNat - 1 := by
  rw [State.negotiate_res, BitVec.toNat_ofNat, Nat.mod_eq_of_lt (mask_lt (negotiatedWidth_le_fifteen bits s.top))]

/-- RESULT after SETRES, unreduced (R123). -/
theorem negotiate_result_toNat (s : State) (bits : Nat) :
    (s.negotiate bits).result.toNat = negotiatedWidth bits s.top.toNat := by
  have := negotiatedWidth_le_fifteen bits s.top
  rw [State.negotiate_result, BitVec.toNat_ofNat]
  omega

/-- The mask of the achievable width is at most TOP (R40, R121). -/
theorem flog2_mask_le (t : Nat) : 2 ^ flog2 t - 1 ≤ t := by
  by_cases ht : t = 0
  · simp [ht, flog2_zero]
  · have := (flog2_spec ht).1
    omega

theorem flog2_eq_zero_iff (t : Nat) : flog2 t = 0 ↔ t = 0 ∨ t = 1 := by
  constructor
  · intro h
    by_cases ht : t = 0
    · exact .inl ht
    · have := (flog2_spec ht).2
      rw [h] at this
      omega
  · rintro (rfl | rfl)
    · exact flog2_zero
    · exact isFlog2_unique (isFlog2_flog2 1) (.inr (by decide))

/-- The width set is 0 exactly for a request of 0 or a TOP below 2 (R124). -/
theorem negotiatedWidth_eq_zero_iff (bits t : Nat) : negotiatedWidth bits t = 0 ↔ bits = 0 ∨ t = 0 ∨ t = 1 := by
  rw [← flog2_eq_zero_iff, negotiatedWidth, requestedWidth, resMaxBits]
  omega

/-- SETRES leaves RES = 0 for the causes of R124 only. -/
theorem negotiate_res_eq_zero_iff (s : State) (bits : Nat) :
    (s.negotiate bits).res = 0 ↔ bits = 0 ∨ s.top.toNat = 0 ∨ s.top.toNat = 1 := by
  rw [← negotiatedWidth_eq_zero_iff, ← BitVec.toNat_inj, negotiate_res_toNat]
  constructor
  · intro h
    have : negotiatedWidth bits s.top.toNat < 2 ^ negotiatedWidth bits s.top.toNat := Nat.lt_two_pow_self
    rw [BitVec.ofNat_eq_ofNat, BitVec.toNat_zero] at h
    omega
  · intro h
    simp [h]

/-- Settles O25: RES is the mask of the negotiated width, which is the smaller of the clamped request and flog2 TOP. -/
theorem setresRespectsRequestAndTop : Obligations.SetresRespectsRequestAndTop := by
  refine ⟨fun s t r ach h hach => ?_, fun s r hr => ?_⟩
  · obtain ⟨-, rfl⟩ := exec_eq_next.1 h
    obtain rfl := isFlog2_unique hach (isFlog2_flog2 _)
    have hreq : negotiatedWidth r s.top.toNat ≤ r := (Nat.min_le_left _ _).trans (Nat.min_le_left _ _)
    have hach : negotiatedWidth r s.top.toNat ≤ flog2 s.top.toNat := Nat.min_le_right _ _
    have hmask : 2 ^ negotiatedWidth r s.top.toNat - 1 ≤ 2 ^ flog2 s.top.toNat - 1 :=
      Nat.sub_le_sub_right (Nat.pow_le_pow_right (by decide) hach) 1
    rw [effectOf, negotiate_result_toNat, negotiate_res_toNat, negotiate_res_eq_zero_iff]
    exact ⟨hreq, hach, negotiatedWidth_le_fifteen r s.top, rfl, hmask, hmask.trans (flog2_mask_le _), Iff.rfl⟩
  · have hclamp : requestedWidth r = requestedWidth 16 := by
      rw [requestedWidth, Nat.min_eq_right hr, requestedWidth, Nat.min_self]
    simp only [exec, execSetres, State.negotiate, negotiatedWidth, hclamp]

/-- Settles O36: the four things a command can do leave these results, and an illegal word only reports an error. -/
theorem resultOfEachCommand : Obligations.ResultOfEachCommand := by
  refine ⟨fun s t p h => ?_, fun s t r h => ?_, fun s t ch x h => ?_, fun s t w why hw hd h => ?_⟩
  · obtain ⟨-, rfl⟩ := exec_eq_next.1 h
    rcases solvePeriod_cases s p with ⟨j, cand, -, he⟩ | ⟨-, he⟩ <;> rw [effectOf, he]
    · exact .inl ⟨rfl, rfl⟩
    · exact .inr ⟨by simp [StatusCode.bits], rfl⟩
  · obtain ⟨-, rfl⟩ := exec_eq_next.1 h
    rw [effectOf, negotiate_result_toNat, negotiate_res_toNat]
    exact ⟨negotiatedWidth_le_fifteen r s.top, Nat.sub_add_cancel Nat.one_le_two_pow⟩
  · have result_zero {i : Instr} (hi : i = .write ch x ∨ i = .writef ch x) : (effectOf i s).result = 0 := by
      rcases effectOf_duty_cases hi s with ⟨-, he⟩ | ⟨c, v, k, -, he⟩ <;> rw [he] <;> rfl
    rcases h with h | h <;> obtain ⟨-, rfl⟩ := exec_eq_next.1 h
    · exact result_zero (.inl rfl)
    · exact result_zero (.inr rfl)
  · obtain ⟨-, rfl⟩ := step_eq_next.1 h
    rw [stepEffect_of_headWord hw, wordEffect, hd]
    rfl

section duty
variable {s : State} (hwf : s.config.wf = true) (c : Channel)
include hwf

/-- WRITE to a known channel while RES > 0 writes the scaled duty cycle (R141). -/
theorem exec_write_of_res_ne_zero (d : Nat) (hres : s.res.toNat ≠ 0) :
    exec (.write (idOf c) d) s = .next (driven s c (scaledDuty d s.top.toNat s.res.toNat) 0) := by
  rw [exec_eq_next, effectOf, State.writeDuty, channelOfId_idOf]
  exact ⟨hwf, by simp only [hres, if_false]; exact (finish_drive_eq_driven s c _ .ok).symm⟩

/-- WRITEF to a known channel writes a product that fits the register as it is (R152). -/
theorem exec_writef_of_le (f : Nat) (hfit : scaledFraction f s.top.toNat ≤ 65535) :
    exec (.writef (idOf c) f) s = .next (driven s c (scaledFraction f s.top.toNat) 0) := by
  rw [exec_eq_next, effectOf, State.writeFraction, channelOfId_idOf]
  exact ⟨hwf, by simp only [Nat.not_lt.2 hfit, if_false]; exact (finish_drive_eq_driven s c _ .ok).symm⟩

end duty

theorem scaledDuty_zero (top res : Nat) : scaledDuty 0 top res = 0 := by simp [scaledDuty, clampDuty]

/-- Full scale of WRITE is TOP (R146). -/
theorem scaledDuty_full (top : Nat) {res : Nat} (hres : res ≠ 0) : scaledDuty res top res = top := by
  rw [scaledDuty, clampDuty, Nat.min_self, Nat.mul_div_cancel_left top (Nat.pos_of_ne_zero hres)]

theorem scaledFraction_zero (top : Nat) : scaledFraction 0 top = 0 := by simp [scaledFraction]

/-- The fraction 1.0 of WRITEF is TOP (R151, R152). -/
theorem scaledFraction_one (top : Nat) : scaledFraction (2 ^ 16) top = top :=
  Nat.mul_div_cancel_left top (by decide)

/-- A mask 2^k - 1 is odd, so a fraction over 2^16 equals one over the mask only at zero and at full scale (R156). -/
theorem fraction_eq_duty_ends {k f d : Nat} (hk : 1 ≤ k) (hd : d ≤ 2 ^ k - 1) (h : f * (2 ^ k - 1) = d * 2 ^ 16) :
    (f = 0 ∧ d = 0) ∨ (f = 2 ^ 16 ∧ d = 2 ^ k - 1) := by
  have heven : 2 ^ k = 2 * 2 ^ (k - 1) := (mul_pow_sub_one (Nat.one_le_iff_ne_zero.1 hk) 2).symm
  have hpos : 0 < 2 ^ (k - 1) := by positivity
  have hodd : Odd (2 ^ k - 1) := ⟨2 ^ (k - 1) - 1, by omega⟩
  have hcoprime : (2 ^ k - 1).Coprime (2 ^ 16) := (Nat.coprime_two_right.2 hodd).pow_right 16
  have hdvd : 2 ^ k - 1 ∣ d := hcoprime.dvd_of_dvd_mul_right ⟨f, by rw [← h, Nat.mul_comm]⟩
  have hmask : 0 < 2 ^ k - 1 := by omega
  rcases Nat.eq_zero_or_pos d with rfl | hdpos
  · have : f = 0 ∨ 2 ^ k - 1 = 0 := Nat.mul_eq_zero.1 (by rw [h, Nat.zero_mul])
    exact .inl ⟨by omega, rfl⟩
  · obtain rfl : d = 2 ^ k - 1 := le_antisymm hd (Nat.le_of_dvd hdpos hdvd)
    exact .inr ⟨Nat.eq_of_mul_eq_mul_right hmask (by rw [h, Nat.mul_comm]), rfl⟩

/-- Settles O34: the odd mask leaves the two ends only, and there both scalings give 0 or TOP. -/
theorem writeAndWritefAgreeExactlyAtTheEnds : Obligations.WriteAndWritefAgreeExactlyAtTheEnds := by
  intro s c k f d hwf hk _ hres hd h
  have htop := s.top.isLt
  have hne : s.res.toNat ≠ 0 := by
    have : 2 ^ 1 ≤ 2 ^ k := Nat.pow_le_pow_right (by decide) hk
    omega
  have hends : (f = 0 ∧ d = 0) ∨ (f = 2 ^ 16 ∧ d = s.res.toNat) := by
    rw [hres] at hd h ⊢
    exact fraction_eq_duty_ends hk hd h
  have agree (v : Nat) (hf : scaledFraction f s.top.toNat = v) (hv : v ≤ 65535) (hw : scaledDuty d s.top.toNat s.res.toNat = v) :
      ∃ t u, exec (.writef (idOf c) f) s = .next t ∧ exec (.write (idOf c) d) s = .next u ∧ t.cmp c = u.cmp c ∧
        t.cmp c = BitVec.ofNat 16 v := by
    subst hf
    refine ⟨_, _, exec_writef_of_le hwf c f hv, exec_write_of_res_ne_zero hwf c d hne, ?_, driven_cmp ..⟩
    rw [driven_cmp, driven_cmp, hw]
  rcases hends with ⟨rfl, rfl⟩ | ⟨rfl, rfl⟩
  · obtain ⟨t, u, ht, hu, heq, hcmp⟩ := agree 0 (scaledFraction_zero _) (Nat.zero_le _) (scaledDuty_zero _ _)
    exact ⟨t, u, ht, hu, heq, .inl ⟨rfl, rfl, hcmp⟩⟩
  · obtain ⟨t, u, ht, hu, heq, hcmp⟩ := agree s.top.toNat (scaledFraction_one _) (by omega) (scaledDuty_full _ hne)
    exact ⟨t, u, ht, hu, heq, .inr ⟨rfl, rfl, by rw [hcmp, BitVec.ofNat_toNat, BitVec.setWidth_eq]⟩⟩

/-! STATUS and RESULT are written by every command and read by none (R35). -/

/-- No command reads STATUS or RESULT, and each overwrites both. -/
theorem effectOf_ignores_outcome (i : Instr) (s : State) (code : BitVec 3) (r : Reg) :
    effectOf i { s with code := code, result := r } = effectOf i s := by
  cases i with
  | init p =>
    simp only [effectOf, State.solvePeriod]
    cases findDivider s.config p <;> rfl
  | setres bits => rfl
  | write ch d =>
    simp only [effectOf, State.writeDuty]
    rcases channelOfId ch with _ | _ | _ <;> rfl
  | writef ch f =>
    simp only [effectOf, State.writeFraction]
    rcases channelOfId ch with _ | _ | _ <;> rfl

theorem wordEffect_ignores_outcome (w : CmdWord) (s : State) (code : BitVec 3) (r : Reg) :
    wordEffect w { s with code := code, result := r } = wordEffect w s := by
  unfold wordEffect
  cases decodeWord w with
  | instr i => exact effectOf_ignores_outcome i s code r
  | illegal why => rfl

/-- Settles O37: a command's effect, and a command word's, overwrites STATUS and RESULT without reading them. -/
theorem outcomeRegistersAreNeverRead : Obligations.OutcomeRegistersAreNeverRead := by
  refine ⟨fun i s code r => ?_, fun s w code r hw => ?_⟩
  · rw [exec_eq_inConfig, exec_eq_inConfig, effectOf_ignores_outcome]
    rfl
  · have heffect : stepEffect { s with code := code, result := r } = stepEffect s := by
      rw [stepEffect_of_headWord hw, stepEffect_of_headWord (s := { s with code := code, result := r }) hw]
      exact wordEffect_ignores_outcome w { s with pending := s.pending.tail } code r
    rw [step_eq_inConfig, step_eq_inConfig, heffect]
    rfl

/-! Every reachable state meets the invariant (R33, R39). -/

/-- The invariant holds at the start of a run and every step keeps it. -/
theorem inv_of_reachable {s : State} (h : Reachable s) : Inv s := by
  induction h with
  | start c accesses hwf => exact inv_hostLists (inv_resetOf hwf) accesses []
  | step s t _ hs ih => exact stepKeepsTheInvariant s t ih hs

/-- WRITE to a known channel leaves CMP[c] at most TOP, whatever was there before (R39 item 6, R146). -/
theorem writeDuty_cmp_le_top (s : State) (c : Channel) (d : Nat) :
    ((s.writeDuty (idOf c) d).cmp c).toNat ≤ (s.writeDuty (idOf c) d).top.toNat := by
  rcases writeDuty_cases s (idOf c) d with ⟨hch, -⟩ | ⟨c', hc, -, he⟩ | ⟨c', hc, -, he⟩
  · exact absurd (idOf_lt_two c) (by omega)
  · obtain rfl : c = c' := by simpa [channelOfId_idOf] using hc
    simp [he]
  · obtain rfl : c = c' := by simpa [channelOfId_idOf] using hc
    have hle := scaledDuty_le d s.top.toNat s.res.toNat
    have hlt := scaledDuty_lt d s.res.toNat s.top
    rwa [he, State.finish_cmp, State.drive_cmp_same, BitVec.toNat_ofNat, Nat.mod_eq_of_lt hlt, State.finish_top, State.drive_top]

/-- Settles O46: items 1 to 5 are the invariant's, item 6 is the bound on what WRITE writes. -/
theorem reachableStatesMeetTheSixInvariants : Obligations.ReachableStatesMeetTheSixInvariants := by
  intro s h
  have hinv := inv_of_reachable h
  refine ⟨Nat.le_of_lt_succ s.top.isLt, hinv.res_mask, hinv.unconfigured, hinv.configured, hinv.code_known, ?_⟩
  intro c d t hrun hs
  obtain ⟨-, rfl⟩ := step_eq_next.1 hs
  rw [stepEffect_of_runsCommand hrun]
  exact writeDuty_cmp_le_top { s with pending := s.pending.tail } c d

/-- Settles O47: the mirror is a clause of the invariant. -/
theorem portLinesMirrorTheRegisters : Obligations.PortLinesMirrorTheRegisters :=
  fun _ h => (inv_of_reachable h).lines_mirror

/-- Settles O13: the reference configuration is accepted, and the reset state of an accepted configuration meets the invariant. -/
theorem resetStateMeetsTheInvariant : Obligations.ResetStateMeetsTheInvariant :=
  inv_resetOf (reference_wf (s := State.reset) rfl rfl)

/-! The decoded command, the read-back port, and R40's example. -/

/-- A word that decodes to a command runs it (R76). -/
theorem performWord_of_instr {w : CmdWord} {i : Instr} (hd : decodeWord w = .instr i) (s : State) :
    performWord w s = exec i s := by
  rw [performWord, hd]

/-- Settles O8: both transports hand the word to the decoder, and a legal word runs its command. -/
theorem stepRunsTheDecodedCommand : Obligations.StepRunsTheDecodedCommand := by
  refine ⟨fun s w rest i hp hd => ?_, fun s bs rest i hp hd => ?_⟩
  · rw [step, hp]
    exact performWord_of_instr hd _
  · obtain ⟨w, hw, hd⟩ := Option.map_eq_some_iff.1 hd
    rw [step, hp]
    simp only [performAccess, performBytes, hw]
    exact performWord_of_instr hd _

/-- CTRL reads as its three fields at bits 0, 3 and 4 (R26). -/
theorem ctrlWord_toNat (s : State) : s.ctrlWord.toNat = s.ctrl.cs.toNat + 8 * s.ctrl.cfg.toNat + 16 * s.ctrl.oe.toNat := by
  have hcs := s.ctrl.cs.isLt
  have hcfg := s.ctrl.cfg.isLt
  simp only [State.ctrlWord, BitVec.toNat_append]
  rw [← Nat.shiftLeft_add_eq_or_of_lt hcs, ← Nat.shiftLeft_add_eq_or_of_lt hcfg, ← Nat.shiftLeft_add_eq_or_of_lt s.ctrl.oe.isLt]
  simp [Nat.shiftLeft_eq]
  omega

/-- STATUS reads as its code (R30). -/
theorem statusWord_toNat (s : State) : s.statusWord.toNat = s.code.toNat := by
  rw [State.statusWord, BitVec.toNat_append, ← Nat.shiftLeft_add_eq_or_of_lt s.code.isLt]
  simp

/-- Settles O9: each number selects its register, and the two packed registers read as their fields. -/
theorem readBackMap : Obligations.ReadBackMap :=
  fun s => ⟨rfl, rfl, rfl, rfl, ctrlWord_toNat s, statusWord_toNat s, rfl, rfl⟩

/-- Settles O48: SETRES 16 at TOP = 39999 sets 15 bits, and the INIT 1 after it commits TOP = 15 alone. -/
theorem reinitLeavesResolutionAndComparesStale : Obligations.ReinitLeavesResolutionAndComparesStale := by
  intro s hclk hdiv htop
  have hset : exec (.setres 16) s = .next (s.negotiate 16) := exec_eq_next.2 ⟨reference_wf hclk hdiv, rfl⟩
  have hinit : exec (.init 1) (s.negotiate 16) = .next (committed (s.negotiate 16) 0 15) :=
    exec_init_reference_band (s := s.negotiate 16) (i := 0) (d := 1) hclk hdiv rfl (by decide) (by simp) rfl
  have hflog : flog2 39999 = 15 := isFlog2_unique (isFlog2_flog2 _) (.inr (by decide))
  have hres : (s.negotiate 16).res = 32767 := by
    rw [State.negotiate_res, htop]
    simp [negotiatedWidth, requestedWidth, hflog]
  exact ⟨_, _, hset, hres, hinit, rfl, hres, rfl, rfl⟩

end Sys2Proof.Safety
end

section
/-! Proofs of the statements of 20_memory.md: the byte order of a byte-serial transport, reads between commands, and a command repeated
at once. -/

namespace Sys2Proof

/-- The bytes of a word, joined with byte 0 lowest, are the word (R52). -/
theorem wordOfBytes_bytesOfWord (w : CmdWord) : wordOfBytes (bytesOfWord w) = some w := by
  simp only [bytesOfWord, wordOfBytes, Option.some.injEq]
  iterate 4 rw [BitVec.extractLsb'_append_extractLsb'_eq_extractLsb' (by rfl)]
  exact BitVec.extractLsb'_eq_self

/-- Only the word's own bytes give it back; any other number of bytes gives no word (R52, R53, log 8). -/
theorem eq_bytesOfWord_of_wordOfBytes {bs : List Byte} {w : CmdWord} (h : wordOfBytes bs = some w) : bs = bytesOfWord w := by
  match bs with
  | [b0, b1, b2, b3, b4] =>
    obtain rfl : (b4 ++ b3 ++ b2 ++ b1 ++ b0 : BitVec (8 + 8 + 8 + 8 + 8)) = w := Option.some.inj h
    have high {v n : Nat} (x : BitVec v) (b : Byte) (hn : 8 ≤ n) :
        BitVec.extractLsb' n 8 (x ++ b) = BitVec.extractLsb' (n - 8) 8 x := BitVec.extractLsb'_append_eq_of_le hn
    have low {v : Nat} (x : BitVec v) (b : Byte) : BitVec.extractLsb' 0 8 (x ++ b) = b := BitVec.extractLsb'_append_eq_right
    simp [bytesOfWord, high, low]
  | [] | [_] | [_, _] | [_, _, _] | [_, _, _, _] | _ :: _ :: _ :: _ :: _ :: _ :: _ => cases h

/-- Fewer than five bytes give no word (R53). -/
theorem wordOfBytes_eq_none_of_length_lt {bs : List Byte} (h : bs.length < 5) : wordOfBytes bs = none := by
  cases hw : wordOfBytes bs with
  | none => rfl
  | some w =>
    rw [eq_bytesOfWord_of_wordOfBytes hw] at h
    exact absurd h (by simp [bytesOfWord])

/-- The last byte of a command word is its OP, CH and RSV fields (R52, R70). -/
theorem lastByte_eq_fields (w : CmdWord) :
    w.extractLsb' 32 8 = (BitVec.ofNat 4 (opField w) ++ BitVec.ofNat 2 (chField w) ++ BitVec.ofNat 2 (rsvField w) : BitVec (4 + 2 + 2)) := by
  simp only [opField, chField, rsvField, BitVec.ofNat_toNat, BitVec.setWidth_eq]
  iterate 2 rw [BitVec.extractLsb'_append_extractLsb'_eq_extractLsb' (by rfl)]

end Sys2Proof

namespace Sys2Proof.Safety

open Sys2Proof.Machine

/-- The bytes of a word perform the word (R52). -/
theorem performBytes_bytesOfWord (w : CmdWord) (s : State) : performBytes (bytesOfWord w) s = performWord w s := by
  rw [performBytes, wordOfBytes_bytesOfWord]

/-- Settles O6: splitting a word into bytes and joining them are inverse, so both transports perform the same word. -/
theorem transportIsLittleEndian : Obligations.TransportIsLittleEndian := by
  refine ⟨fun w j hj => ?_, wordOfBytes_bytesOfWord, fun _ _ => eq_bytesOfWord_of_wordOfBytes,
    fun w => congrArg some (lastByte_eq_fields w), fun _ _ => ⟨rfl, rfl, rfl⟩,
    fun s w rest => performBytes_bytesOfWord w { s with pending := rest }⟩
  interval_cases j <;> rfl

/-- Settles O7: fewer than five bytes give no word, and an access without a word has no effect. -/
theorem shortTransferDoesNothing : Obligations.ShortTransferDoesNothing := by
  intro s bs rest hwf hp hlen
  refine step_eq_next.2 ⟨hwf, ?_⟩
  rw [stepEffect, hp]
  simp only [accessEffect, wordOfBytes_eq_none_of_length_lt hlen, Option.map_none, Option.getD_none]

/-! Register reads between commands (R50, R54, R55, R60). -/

/-- A step on a read appends the register's value to the answers and takes the access (R50). -/
theorem stepEffect_of_read {s : State} {n : BitVec 3} {rest : List HostAccess} (hp : s.pending = .read n :: rest) :
    stepEffect s = { s with pending := rest, replies := s.replies ++ [s.readBack n] } := by
  rw [stepEffect, hp]
  rfl

/-- A step on a command word answers nothing and takes the access. -/
theorem stepEffect_of_command {s : State} {w : CmdWord} {rest : List HostAccess} (hp : s.pending = .command w :: rest) :
    (stepEffect s).replies = s.replies ∧ (stepEffect s).pending = rest := by
  rw [stepEffect, hp]
  obtain ⟨hreplies, hpending, -⟩ := wordEffect_keeps_model_fields w { s with pending := rest }
  exact ⟨hreplies, hpending⟩

/-- Settles O10: in an accepted configuration a step on a read is that read's effect. -/
theorem readHasNoSideEffect : Obligations.ReadHasNoSideEffect :=
  fun _ _ _ hwf hp => step_eq_next.2 ⟨hwf, (stepEffect_of_read hp).symm⟩

/-- Settles O11: a command answers nothing and the read answers from the state in which it is taken. -/
theorem readsSeeCompletedCommandsOnly : Obligations.ReadsSeeCompletedCommandsOnly := by
  refine ⟨fun s t u w n rest hp hst htu => ?_, fun s t u w n rest hp hst htu => ?_⟩ <;>
    obtain ⟨-, rfl⟩ := step_eq_next.1 htu <;> obtain ⟨-, rfl⟩ := step_eq_next.1 hst
  · obtain ⟨hreplies, hpending⟩ := stepEffect_of_command hp
    rw [stepEffect_of_read hpending, hreplies]
  · have hread := stepEffect_of_read hp
    rw [(stepEffect_of_command (by rw [hread])).1, hread]

/-! A command repeated at once (R54). -/

/-- f emits some events, and repeated on its own result it changes nothing but to emit them again (R54). -/
def RepeatsOn (f : State → State) (s : State) : Prop :=
  ∃ evs, (f s).history = s.history ++ evs ∧ f (f s) = { f s with history := (f s).history ++ evs }

/-- An update that emits nothing repeats when it is idempotent. -/
theorem repeatsOn_of_silent {f : State → State} {s : State} (hsilent : (f s).history = s.history) (hidem : f (f s) = f s) :
    RepeatsOn f s :=
  ⟨[], by rw [hsilent, List.append_nil], by rw [hidem, List.append_nil]⟩

theorem raise_repeatsOn (s : State) (k : StatusCode) : RepeatsOn (·.raise k) s := repeatsOn_of_silent rfl rfl

/-- SETRES reads TOP, which it does not write (R123). -/
theorem negotiate_repeatsOn (s : State) (bits : Nat) : RepeatsOn (·.negotiate bits) s := repeatsOn_of_silent rfl rfl

theorem commitPeriod_repeatsOn (s : State) (j cand : Nat) : RepeatsOn (·.commitPeriod j cand) s := ⟨_, rfl, rfl⟩

theorem finish_drive_repeatsOn (s : State) (c : Channel) (v : Reg) (k : StatusCode) (r : Reg) :
    RepeatsOn (fun t => (t.drive c v).finish k r) s :=
  ⟨[.setCompare c v], by simp, by cases c <;> rfl⟩

/-- A command repeats when it acts on s and on its result as one and the same update, which repeats. -/
theorem effectOf_repeatsOn_of_update {i : Instr} {s : State} {f : State → State} (hf : RepeatsOn f s)
    (hfirst : effectOf i s = f s) (hsecond : effectOf i (f s) = f (f s)) : RepeatsOn (effectOf i) s := by
  rw [RepeatsOn, hfirst, hsecond]
  exact hf

/-- Whether INIT commits, and what, depends on the configuration alone (R101, R102). -/
theorem solvePeriod_of_config (s : State) (p : Nat) :
    (∃ j cand, ∀ t : State, t.config = s.config → t.solvePeriod p = t.commitPeriod j cand) ∨
    (∀ t : State, t.config = s.config → t.solvePeriod p = t.raise .unrepresentablePeriod) := by
  cases hf : findDivider s.config p with
  | none => exact .inr fun t ht => by rw [State.solvePeriod, ht, hf]
  | some found => exact .inl ⟨found.1, found.2, fun t ht => by rw [State.solvePeriod, ht, hf]⟩

/-- Which of its cases WRITE takes, and the value it writes, depend on TOP and RES alone (R141). -/
theorem writeDuty_of_inputs (s : State) (ch d : Nat) :
    (∀ t : State, t.writeDuty ch d = t.raise .unknownChannel) ∨
    (∃ c v k, ∀ t : State, t.top = s.top → t.res = s.res → t.writeDuty ch d = (t.drive c v).finish k 0) := by
  cases hc : channelOfId ch with
  | none => exact .inl fun t => by rw [State.writeDuty, hc]
  | some c =>
    by_cases hres : s.res.toNat = 0
    · refine .inr ⟨c, 0, .zeroResolution, fun t _ hr => ?_⟩
      simp only [State.writeDuty, hc, hr, hres, if_true, State.raise]
    · refine .inr ⟨c, BitVec.ofNat 16 (scaledDuty d s.top.toNat s.res.toNat), .ok, fun t ht hr => ?_⟩
      simp only [State.writeDuty, hc, ht, hr, hres, if_false]

/-- Which of its cases WRITEF takes, and the value it writes, depend on TOP alone (R152). -/
theorem writeFraction_of_top (s : State) (ch f : Nat) :
    (∀ t : State, t.writeFraction ch f = t.raise .unknownChannel) ∨
    (∃ c v k, ∀ t : State, t.top = s.top → t.writeFraction ch f = (t.drive c v).finish k 0) := by
  cases hc : channelOfId ch with
  | none => exact .inl fun t => by rw [State.writeFraction, hc]
  | some c =>
    by_cases hsat : scaledFraction f s.top.toNat > topMax
    · refine .inr ⟨c, BitVec.ofNat 16 topMax, .fracSaturated, fun t ht => ?_⟩
      simp only [State.writeFraction, hc, ht, hsat, if_true, State.raise]
    · refine .inr ⟨c, BitVec.ofNat 16 (scaledFraction f s.top.toNat), .ok, fun t ht => ?_⟩
      simp only [State.writeFraction, hc, ht, hsat, if_false]

/-- No command writes what it chooses its update by, so every command repeats. -/
theorem effectOf_repeatsOn (i : Instr) (s : State) : RepeatsOn (effectOf i) s := by
  cases i with
  | init p =>
    rcases solvePeriod_of_config s p with ⟨j, cand, he⟩ | he
    · exact effectOf_repeatsOn_of_update (commitPeriod_repeatsOn s j cand) (he _ rfl) (he _ rfl)
    · exact effectOf_repeatsOn_of_update (raise_repeatsOn s _) (he _ rfl) (he _ rfl)
  | setres bits => exact negotiate_repeatsOn s bits
  | write ch d =>
    rcases writeDuty_of_inputs s ch d with he | ⟨c, v, k, he⟩
    · exact effectOf_repeatsOn_of_update (raise_repeatsOn s _) (he _) (he _)
    · exact effectOf_repeatsOn_of_update (finish_drive_repeatsOn s c v k 0) (he _ rfl rfl) (he _ (by simp) (by simp))
  | writef ch f =>
    rcases writeFraction_of_top s ch f with he | ⟨c, v, k, he⟩
    · exact effectOf_repeatsOn_of_update (raise_repeatsOn s _) (he _) (he _)
    · exact effectOf_repeatsOn_of_update (finish_drive_repeatsOn s c v k 0) (he _ rfl) (he _ (by simp))

/-- Settles O41: the effect repeats on its own result, and its configuration is the first run's, so the second run completes too. -/
theorem repeatedCommandLeavesTheSameState : Obligations.RepeatedCommandLeavesTheSameState := by
  intro i s t h
  obtain ⟨hwf, rfl⟩ := exec_eq_next.1 h
  obtain ⟨evs, hevs, hrepeat⟩ := effectOf_repeatsOn i s
  refine ⟨evs, hevs, exec_eq_next.2 ⟨?_, hrepeat.symm⟩⟩
  rwa [(effectOf_keeps_model_fields i s).2.2]

end Sys2Proof.Safety
end

section
/-! Proofs of the statements of 30_encoding.md: the two round trips, the match and mask table, the illegal words, and the assembler. -/

namespace Sys2Proof

/-! What the decoder answers, in terms of the fields of the word (R70, R76). -/

/-- A word decodes to a command exactly when RSV is 0 and OP, CH and OPND are the command's. -/
theorem decodeWord_eq_instr_iff {w : CmdWord} {i : Instr} : decodeWord w = .instr i ↔
    rsvField w = 0 ∧ opField w = opcodeOf i ∧ chField w = channelOf i ∧ opndField w = operandOf i := by
  constructor
  · intro h
    unfold decodeWord at h
    split_ifs at h with hrsv hinit hsetres hwrite hwritef <;> cases h
    · exact ⟨not_not.1 hrsv, hinit.1, hinit.2, rfl⟩
    · exact ⟨not_not.1 hrsv, hsetres.1, hsetres.2, rfl⟩
    · exact ⟨not_not.1 hrsv, hwrite, rfl, rfl⟩
    · exact ⟨not_not.1 hrsv, hwritef, rfl, rfl⟩
  · rintro ⟨hrsv, hop, hch, hopnd⟩
    rw [decodeWord, hrsv, hop, hch, hopnd]
    cases i <;> simp [opcodeOf, channelOf, operandOf]

/-- The operands of a decoded command fit, since they are fields of the word. -/
theorem operands_fit_of_decodeWord {w : CmdWord} {i : Instr} (h : decodeWord w = .instr i) :
    channelOf i < 4 ∧ operandOf i < 2 ^ 32 := by
  obtain ⟨-, -, hch, hopnd⟩ := decodeWord_eq_instr_iff.1 h
  exact ⟨hch ▸ chField_lt w, hopnd ▸ opndField_lt w⟩

/-- A word is illegal exactly when it decodes to no command. -/
theorem decodeWord_illegal_iff_no_instr (w : CmdWord) :
    (∃ why, decodeWord w = .illegal why) ↔ ∀ i, decodeWord w ≠ .instr i := by
  cases decodeWord w <;> simp

/-- The three grounds of R77: RSV set, no such OP, or CH set where it must be 0. -/
theorem decodeWord_illegal_iff_grounds (w : CmdWord) : (∃ why, decodeWord w = .illegal why) ↔
    rsvField w ≠ 0 ∨ (opField w = 0 ∨ 5 ≤ opField w) ∨ ((opField w = 1 ∨ opField w = 2) ∧ chField w ≠ 0) := by
  unfold decodeWord
  split_ifs <;> simp <;> omega

/-- Settles O2: the fields of the encoding are the command's own. -/
theorem decodeOfEncodeIsIdentity : Obligations.DecodeOfEncodeIsIdentity := by
  intro i hwf
  obtain ⟨hop, hch, hrsv, hopnd⟩ := Laws.EncodedFields.of_any i hwf
  exact decodeWord_eq_instr_iff.2 ⟨hrsv, hop, hch, hopnd⟩

/-- Settles O3: the fields of a legal word are its command's, so packed again they give the word. -/
theorem encodeOfDecodeIsIdentity : Obligations.EncodeOfDecodeIsIdentity := by
  intro w i h
  obtain ⟨hrsv, hop, hch, hopnd⟩ := decodeWord_eq_instr_iff.1 h
  refine ⟨(instr_wf_iff i).2 (operands_fit_of_decodeWord h), ?_⟩
  rw [encode, ← hop, ← hch, ← hrsv, ← hopnd, packWord_fields_eq]

/-! The match and mask table (R75). -/

/-- The mask of INIT and SETRES compares OP, CH and RSV. -/
theorem and_mask_op_ch_rsv_eq_iff (w : CmdWord) {op : Nat} (hop : op < 16) :
    w &&& (0xFF00000000 : CmdWord) = packWord op 0 0 0 ↔ opField w = op ∧ chField w = 0 ∧ rsvField w = 0 := by
  have hch := chField_lt w
  rw [← BitVec.toNat_inj, mask_op_ch_rsv, packWord_toNat hop (by decide) (by decide) (by decide)]
  have hrsv : rsvField w < 4 := (w.extractLsb' 32 2).isLt
  omega

/-- The mask of WRITE and WRITEF compares OP and RSV. -/
theorem and_mask_op_rsv_eq_iff (w : CmdWord) {op : Nat} (hop : op < 16) :
    w &&& (0xF300000000 : CmdWord) = packWord op 0 0 0 ↔ opField w = op ∧ rsvField w = 0 := by
  rw [← BitVec.toNat_inj, mask_op_rsv, packWord_toNat hop (by decide) (by decide) (by decide)]
  have hrsv : rsvField w < 4 := (w.extractLsb' 32 2).isLt
  omega

/-- A command without a channel is the row of its OP with CH = 0. -/
theorem decodes_iff_row_of_no_channel (w : CmdWord) {f : Nat → Instr} {op : Nat} (hlt : op < 16)
    (hop : ∀ x, opcodeOf (f x) = op) (hch : ∀ x, channelOf (f x) = 0) (hopnd : ∀ x, operandOf (f x) = x) :
    (∃ x, decodeWord w = .instr (f x)) ↔ w &&& (0xFF00000000 : CmdWord) = packWord op 0 0 0 := by
  rw [and_mask_op_ch_rsv_eq_iff w hlt]
  simp only [decodeWord_eq_instr_iff, hop, hch, hopnd]
  constructor
  · rintro ⟨_, hr, ho, hc, _⟩
    exact ⟨ho, hc, hr⟩
  · rintro ⟨ho, hc, hr⟩
    exact ⟨_, hr, ho, hc, rfl⟩

/-- A command with a channel is the row of its OP, at every CH. -/
theorem decodes_iff_row_of_channel (w : CmdWord) {f : Nat → Nat → Instr} {op : Nat} (hlt : op < 16)
    (hop : ∀ ch x, opcodeOf (f ch x) = op) (hch : ∀ ch x, channelOf (f ch x) = ch) (hopnd : ∀ ch x, operandOf (f ch x) = x) :
    (∃ ch x, decodeWord w = .instr (f ch x)) ↔ w &&& (0xF300000000 : CmdWord) = packWord op 0 0 0 := by
  rw [and_mask_op_rsv_eq_iff w hlt]
  simp only [decodeWord_eq_instr_iff, hop, hch, hopnd]
  constructor
  · rintro ⟨_, _, hr, ho, _⟩
    exact ⟨ho, hr⟩
  · rintro ⟨ho, hr⟩
    exact ⟨_, _, hr, ho, rfl, rfl⟩

theorem decodes_to_init_iff (w : CmdWord) :
    (∃ p, decodeWord w = .instr (.init p)) ↔ w &&& (0xFF00000000 : CmdWord) = 0x1000000000 :=
  decodes_iff_row_of_no_channel w (op := 1) (by decide) (fun _ => rfl) (fun _ => rfl) (fun _ => rfl)

theorem decodes_to_setres_iff (w : CmdWord) :
    (∃ r, decodeWord w = .instr (.setres r)) ↔ w &&& (0xFF00000000 : CmdWord) = 0x2000000000 :=
  decodes_iff_row_of_no_channel w (op := 2) (by decide) (fun _ => rfl) (fun _ => rfl) (fun _ => rfl)

theorem decodes_to_write_iff (w : CmdWord) :
    (∃ ch d, decodeWord w = .instr (.write ch d)) ↔ w &&& (0xF300000000 : CmdWord) = 0x3000000000 :=
  decodes_iff_row_of_channel w (op := 3) (by decide) (fun _ _ => rfl) (fun _ _ => rfl) (fun _ _ => rfl)

theorem decodes_to_writef_iff (w : CmdWord) :
    (∃ ch f, decodeWord w = .instr (.writef ch f)) ↔ w &&& (0xF300000000 : CmdWord) = 0x4000000000 :=
  decodes_iff_row_of_channel w (op := 4) (by decide) (fun _ _ => rfl) (fun _ _ => rfl) (fun _ _ => rfl)

/-- A row accepts a word only when the word carries the OP of the row's pattern. -/
theorem opField_eq_of_rowAccepts {r : OpcodeRow} {w : CmdWord} (hr : r ∈ opcodeTable) (h : rowAccepts r w = true) :
    opField r.pattern = opField w := by
  have hmask : w &&& r.mask = r.pattern := eq_of_beq h
  have hones : ∀ r ∈ opcodeTable, r.mask.extractLsb' 36 4 = BitVec.allOnes 4 := by decide
  rw [← hmask, opField, BitVec.extractLsb'_and, hones r hr, BitVec.and_allOnes, opField]

/-- No OP stands in two rows. -/
theorem rows_with_opcode_le_one {op : Nat} (hop : op < 16) : opcodeTable.countP (fun r => opField r.pattern == op) ≤ 1 := by
  interval_cases op <;> decide

/-- At most one row accepts a word (R75). -/
theorem accepting_rows_le_one (w : CmdWord) : (opcodeTable.filter (fun r => rowAccepts r w)).length ≤ 1 := by
  have hop : opField w < 16 := (w.extractLsb' 36 4).isLt
  rw [← List.countP_eq_length_filter]
  exact le_trans (List.countP_mono_left fun r hr h => beq_iff_eq.2 (opField_eq_of_rowAccepts hr h)) (rows_with_opcode_le_one hop)

/-- A word is illegal exactly when no row accepts it (R75). -/
theorem decodeWord_illegal_iff_no_row (w : CmdWord) :
    (∃ why, decodeWord w = .illegal why) ↔ ∀ r ∈ opcodeTable, rowAccepts r w = false := by
  rw [decodeWord_illegal_iff_no_instr]
  simp only [opcodeTable, rowAccepts, List.forall_mem_cons, List.not_mem_nil, false_imp_iff, implies_true, and_true,
    beq_eq_false_iff_ne, ne_eq, ← decodes_to_init_iff, ← decodes_to_setres_iff, ← decodes_to_write_iff,
    ← decodes_to_writef_iff, not_exists]
  constructor
  · intro h
    exact ⟨fun _ => h _, fun _ => h _, fun _ _ => h _, fun _ _ => h _⟩
  · rintro ⟨hinit, hsetres, hwrite, hwritef⟩ i
    cases i with
    | init p => exact hinit p
    | setres r => exact hsetres r
    | write ch d => exact hwrite ch d
    | writef ch f => exact hwritef ch f

end Sys2Proof

namespace Sys2Proof.Machine

/-- The CH column of R75, for the identifiers the field can hold. -/
theorem channelOfId_column {ch : Nat} (h : ch < 4) :
    (channelOfId ch = some .a ↔ ch = 0) ∧ (channelOfId ch = some .b ↔ ch = 1) ∧ (channelOfId ch = none ↔ ch = 2 ∨ ch = 3) := by
  interval_cases ch <;> decide

/-- Settles O4: each row compares exactly the fields the decoder tests for its command. -/
theorem commandsAreMatchAndMaskRows : Obligations.CommandsAreMatchAndMaskRows := by
  intro w
  refine ⟨decodes_to_init_iff w, decodes_to_setres_iff w, decodes_to_write_iff w, decodes_to_writef_iff w,
    accepting_rows_le_one w, decodeWord_illegal_iff_no_row w, fun ch d h => channelOfId_column ?_⟩
  rcases h with h | h <;> exact (operands_fit_of_decodeWord h).1

/-! The illegal words (R77, R175). -/

/-- Settles O5: the decoder refuses on R77's grounds, and the effect of an illegal word is to raise ILLEGAL_COMMAND. -/
theorem illegalWordsReportOnly : Obligations.IllegalWordsReportOnly := by
  refine ⟨fun w => ?_, fun s w why rest hwf hp hd => step_eq_next.2 ⟨hwf, ?_⟩⟩
  · rw [← BitVec.toNat_ne_iff_ne, ← BitVec.toNat_ne_iff_ne]
    exact decodeWord_illegal_iff_grounds w
  · rw [stepEffect, hp]
    simp only [accessEffect, wordEffect, hd]
    rfl

/-! The assembler (R79, R80, R81). -/

/-- A command assembles to exactly the word that decodes to it: the two round trips in one. -/
theorem assembleInstr_eq_some_iff {i : Instr} {w : CmdWord} : assembleInstr i = some w ↔ decodeWord w = .instr i := by
  rw [assembleInstr, Option.ite_none_right_eq_some, Option.some.injEq]
  constructor
  · rintro ⟨hwf, rfl⟩
    exact decodeOfEncodeIsIdentity i hwf
  · exact encodeOfDecodeIsIdentity w i

/-- Settles O49: the word decodes to the command, so its operands fit; a raw word is its value. -/
theorem assemblerRefusesOperandsOutOfRange : Obligations.AssemblerRefusesOperandsOutOfRange := by
  refine ⟨fun i w => ?_, fun v w => ?_⟩
  · rw [assemble, assembleInstr_eq_some_iff]
    constructor
    · intro h
      obtain ⟨hch, hopnd⟩ := operands_fit_of_decodeWord h
      exact ⟨hch, hopnd, h⟩
    · rintro ⟨-, -, h⟩
      exact h
  · rw [assemble, Option.ite_none_right_eq_some, Option.some.injEq, ← BitVec.toNat_inj, BitVec.toNat_ofNat]
    refine and_congr_right fun hv => ?_
    rw [Nat.mod_eq_of_lt hv, eq_comm]

/-- fixOfDecimal is the floor of the exact product (R80). -/
theorem fixOfDecimal_eq_floor (m k : Nat) : fixOfDecimal m k = ⌊(m : ℚ) / 10 ^ k * 65536⌋₊ := by
  rw [fixOfDecimal, ← Nat.floor_div_eq_div (K := ℚ)]
  push_cast
  rw [div_mul_eq_mul_div]

/-- The assembler's range check on a decimal literal is r < 65536 (R80). -/
theorem decimal_lt_iff (m k : Nat) : m < 65536 * 10 ^ k ↔ (m : ℚ) / 10 ^ k < 65536 := by
  rw [div_lt_iff₀ (by positivity)]
  norm_cast

/-- WRITEFR in range assembles to exactly the word that decodes to its WRITEF (R80). -/
theorem assemble_writefr_eq_some_iff (ch m k : Nat) (w : CmdWord) : assemble (.writefr ch m k) = some w ↔
    (m : ℚ) / 10 ^ k < 65536 ∧ decodeWord w = .instr (.writef ch ⌊(m : ℚ) / 10 ^ k * 65536⌋₊) := by
  rw [assemble, Option.ite_none_right_eq_some, decimal_lt_iff, assembleInstr_eq_some_iff, fixOfDecimal_eq_floor]

/-- Settles O50: WRITEFR assembles as the WRITEF of the floor, whose channel fits because its word decodes; the texts are computed. -/
theorem writefrRoundsTowardZero : Obligations.WritefrRoundsTowardZero := by
  refine ⟨fun ch m k w => ?_, by decide, by decide, by decide, by decide, by decide, by decide⟩
  rw [assemble_writefr_eq_some_iff]
  exact and_congr_right fun _ => ⟨fun h => ⟨(operands_fit_of_decodeWord h).1, h⟩, And.right⟩

/-- A text that parses to a command assembles to the word that decodes to it. -/
theorem assembleText_of_parseLine {text : String} {i : Instr} {w : CmdWord} (hp : parseLine text = some (.command i))
    (hd : decodeWord w = .instr i) : assembleText text = some w ∧ decodeWord w = .instr i := by
  rw [assembleText, hp]
  exact ⟨assembleInstr_eq_some_iff.2 hd, hd⟩

/-- Settles O1: each command's text parses to the command its word decodes to; the raw words are computed. -/
theorem exampleWordsAssembleAndDecode : Obligations.ExampleWordsAssembleAndDecode := by
  refine ⟨assembleText_of_parseLine ?_ ?_, assembleText_of_parseLine ?_ ?_, assembleText_of_parseLine ?_ ?_,
    assembleText_of_parseLine ?_ ?_, assembleText_of_parseLine ?_ ?_, assembleText_of_parseLine ?_ ?_,
    assembleText_of_parseLine ?_ ?_, assembleText_of_parseLine ?_ ?_, ?_, ?_, ?_⟩ <;> decide

end Sys2Proof.Machine
end

section
/-! Proofs of the statements of 40_period_solver.md: the candidate against the product, what a successful INIT chose, when INIT succeeds, and
its frame. -/

namespace Sys2Proof.Safety

open Sys2Proof.Machine

/-! The candidate as a bound on the product CLK_MHZ * p (R101). -/

/-- The candidate reaches k exactly when the product holds k + 1 ticks of the divider. -/
theorem le_candOf_iff {c : Config} {p d : Nat} (hd : 1 ≤ d) (k : Nat) : (k : Int) ≤ candOf c p d ↔ (k + 1) * d ≤ c.clkMHz * p := by
  rw [← Nat.le_div_iff_mul_le hd, Config.clkMHz, candOf]
  omega

theorem candOf_neg_iff {c : Config} {p d : Nat} (hd : 1 ≤ d) : candOf c p d < 0 ↔ c.clkMHz * p < d := by
  have hzero := le_candOf_iff (c := c) (p := p) hd 0
  omega

/-- The candidate t counts the whole ticks of the product, less one. -/
theorem product_bounds_of_eq_candOf {c : Config} {p d t : Nat} (hd : 1 ≤ d) (ht : (t : Int) = candOf c p d) :
    (t + 1) * d ≤ c.clkMHz * p ∧ c.clkMHz * p < (t + 2) * d := by
  refine ⟨(le_candOf_iff hd t).1 ht.le, not_le.1 fun hle => ?_⟩
  have hreached := (le_candOf_iff hd (t + 1)).2 hle
  omega

/-- Settles O16: a quotient of naturals less one is at least -1, and it is negative exactly when the product is below the divider. -/
theorem candidateIsExactAndSigned : Obligations.CandidateIsExactAndSigned := by
  intro c p d hd
  have hneg := candOf_neg_iff (c := c) (p := p) hd
  have hbound : -1 ≤ candOf c p d := sub_le_sub_right (Int.natCast_nonneg _) 1
  rw [candidateTop_eq_candOf]
  refine ⟨rfl, hbound, ?_⟩
  rw [Config.clkMHz] at hneg
  omega

/-! The divider table of a configuration that is not refused (R6). -/

section table
variable {c : Config} (hwf : c.wf = true)
include hwf

theorem divider_pos {d : Nat} (hd : d ∈ c.div) : 1 ≤ d := by
  obtain ⟨-, hpos, -⟩ := (config_wf_iff c).1 hwf
  exact hpos d hd

theorem div_ascending : c.div.Pairwise (· < ·) := by
  obtain ⟨-, -, hasc⟩ := (config_wf_iff c).1 hwf
  exact hasc

theorem head_le_divider {first d : Nat} (hfirst : c.div.head? = some first) (hd : d ∈ c.div) : first ≤ d := by
  obtain ⟨rest, hdiv⟩ := List.head?_eq_some_iff.1 hfirst
  simpa [hdiv] using ((div_ascending hwf).imp le_of_lt).rel_head hd

theorem divider_le_getLast {last d : Nat} (hlast : c.div.getLast? = some last) (hd : d ∈ c.div) : d ≤ last := by
  obtain ⟨front, hdiv⟩ := List.getLast?_eq_some_iff.1 hlast
  simpa [hdiv] using ((div_ascending hwf).imp le_of_lt).rel_getLast hd

/-- The first fit is the smallest divider that fits: the table ascends (R110). -/
theorem firstFit_le_of_fits {p i d e : Nat} (hf : FirstFit c p i d) (he : e ∈ c.div) (hfe : Fits c p e) : d ≤ e := by
  obtain ⟨hd, -, hearlier⟩ := hf
  obtain ⟨j, hj⟩ := List.mem_iff_getElem?.1 he
  obtain hji | rfl | hij := Nat.lt_trichotomy j i
  · exact absurd hfe (hearlier j e hji hj)
  · exact (Option.some.inj (hd.symm.trans hj)).le
  · exact ((pairwise_lt_iff_getElem? c.div).1 (div_ascending hwf) i j d e hij hd hj).le

/-- A jump over the 16-bit range between two dividers needs a ratio above 65537 (R107 item 7). -/
theorem ratio_of_jump {p d e : Nat} (hd : d ∈ c.div) (he : e ∈ c.div) (hhigh : 65535 < candOf c p d) (hneg : candOf c p e < 0) :
    65537 * d < e :=
  calc 65537 * d ≤ c.clkMHz * p := (le_candOf_iff (divider_pos hwf hd) 65536).1 hhigh
    _ < e := (candOf_neg_iff (divider_pos hwf he)).1 hneg

/-- Without a ratio above 65537 the candidates cannot fall past the 16-bit range in one jump: where none of them is in it and the first is not
negative, all are above it. -/
theorem candOf_high_of_no_fit {p first : Nat} (hfirst : c.div.head? = some first) (hnonneg : 0 ≤ candOf c p first)
    (hratio : ∀ (i d e : Nat), c.div[i]? = some d → c.div[i + 1]? = some e → e ≤ 65537 * d) (hnone : ∀ d ∈ c.div, ¬ Fits c p d) :
    ∀ (i d : Nat), c.div[i]? = some d → 65535 < candOf c p d := by
  have high_of_nonneg {d : Nat} (hd : d ∈ c.div) (h : 0 ≤ candOf c p d) : 65535 < candOf c p d :=
    not_le.1 fun hle => hnone d hd ⟨h, hle⟩
  intro i
  induction i with
  | zero =>
    intro d hd
    obtain rfl : first = d := Option.some.inj (hfirst.symm.trans (List.head?_eq_getElem?.trans hd))
    exact high_of_nonneg (List.mem_of_getElem? hd) hnonneg
  | succ i ih =>
    intro e he
    have hmem := List.mem_of_getElem? he
    refine high_of_nonneg hmem (not_lt.1 fun hneg => ?_)
    obtain ⟨d, hd⟩ : ∃ d, c.div[i]? = some d := ⟨_, List.getElem?_eq_getElem (Nat.lt_of_succ_lt (List.getElem?_eq_some_iff.1 he).1)⟩
    exact absurd (ratio_of_jump hwf (List.mem_of_getElem? hd) hmem (ih d hd) hneg) (not_lt.2 (hratio i d e hd he))

/-- In a table without a gap some divider fits exactly when the first candidate is not too small and the last not too large (R107 item 7). -/
theorem exists_fits_iff_of_no_gap {p first last : Nat} (hfirst : c.div.head? = some first) (hlast : c.div.getLast? = some last)
    (hratio : ∀ (i d e : Nat), c.div[i]? = some d → c.div[i + 1]? = some e → e ≤ 65537 * d) :
    (∃ d ∈ c.div, Fits c p d) ↔ 0 ≤ candOf c p first ∧ candOf c p last ≤ 65535 := by
  constructor
  · rintro ⟨d, hd, hlow, hhigh⟩
    have hfirst_pos := divider_pos hwf (List.mem_of_mem_head? hfirst)
    exact ⟨hlow.trans (candOf_antitone hfirst_pos (head_le_divider hwf hfirst hd)),
      (candOf_antitone (divider_pos hwf hd) (divider_le_getLast hwf hlast hd)).trans hhigh⟩
  · rintro ⟨hlow, hhigh⟩
    by_contra hnone
    push Not at hnone
    have hlast_high := candOf_high_of_no_fit hwf hfirst hlow hratio hnone _ last (List.getLast?_eq_getElem?.symm.trans hlast)
    omega

end table

/-! What INIT can answer, in the terms of R102 to R105. -/

/-- INIT completes in an accepted configuration only, committing the first fit or, where none fits, reporting code 1. -/
theorem exec_init_cases {s t : State} {p : Nat} (h : exec (.init p) s = .next t) : s.config.wf = true ∧
    ((∃ i d cand : Nat, FirstFit s.config p i d ∧ (cand : Int) = candOf s.config p d ∧ t = committed s i cand) ∨
     ((∀ d ∈ s.config.div, ¬ Fits s.config p d) ∧ t = onlyReports s 1)) := by
  obtain ⟨hwf, rfl⟩ := exec_eq_next.1 h
  refine ⟨hwf, ?_⟩
  rcases solvePeriod_cases s p with ⟨i, cand, hf, he⟩ | ⟨hf, he⟩ <;> rw [effectOf, he]
  · obtain ⟨d, hd, hcand⟩ := findDivider_eq_some_iff_firstFit.1 hf
    exact .inl ⟨i, d, cand, hd, hcand, commitPeriod_eq_committed s i cand⟩
  · exact .inr ⟨findDivider_eq_none_iff.1 hf, raise_eq_onlyReports s .unrepresentablePeriod⟩

/-- A successful INIT leaves the first fit in CS and its candidate in TOP, both unreduced (R102, R104). -/
theorem firstFit_of_init_succeeds {s t : State} {p : Nat} (h : exec (.init p) s = .next t) (hres : t.result = 1) :
    s.config.wf = true ∧ ∃ i d, FirstFit s.config p i d ∧ t.ctrl.cs.toNat = i + 1 ∧ (t.top.toNat : Int) = candOf s.config p d := by
  obtain ⟨hwf, ⟨i, d, cand, hf, hcand, rfl⟩ | ⟨-, rfl⟩⟩ := exec_init_cases h
  · obtain ⟨⟨-, -, hlen⟩, -⟩ := (config_wf_iff _).1 hwf
    obtain ⟨hi, hcand_le⟩ := findDivider_bounds (findDivider_eq_some_iff_firstFit.2 ⟨d, hf, hcand⟩)
    have hcs : (committed s i cand).ctrl.cs.toNat = i + 1 := Nat.mod_eq_of_lt (by omega)
    have htop : (committed s i cand).top.toNat = cand := Nat.mod_eq_of_lt (by omega)
    exact ⟨hwf, i, d, hf, hcs, by rw [htop, hcand]⟩
  · exact absurd hres (by simp [onlyReports])

/-- INIT succeeds exactly when some divider of the table fits (R103). -/
theorem init_succeeds_iff {s : State} {p : Nat} (hwf : s.config.wf = true) :
    (∃ t, exec (.init p) s = .next t ∧ t.result = 1) ↔ ∃ d ∈ s.config.div, Fits s.config p d := by
  constructor
  · rintro ⟨t, ht, hres⟩
    obtain ⟨-, i, d, ⟨hd, hfit, -⟩, -⟩ := firstFit_of_init_succeeds ht hres
    exact ⟨d, List.mem_of_getElem? hd, hfit⟩
  · rintro ⟨d, hd, hfit⟩
    have ht : exec (.init p) s = .next (effectOf (.init p) s) := exec_eq_next.2 ⟨hwf, rfl⟩
    obtain ⟨-, ⟨i, -, cand, -, -, he⟩ | ⟨hnone, -⟩⟩ := exec_init_cases ht
    · exact ⟨_, ht, by rw [he]; rfl⟩
    · exact absurd hfit (hnone d hd)

/-! The statements of the period solver (R103 to R111). -/

/-- Settles O17, by the two ends of the divider search. -/
theorem initFollowsItsPseudocode : Obligations.InitFollowsItsPseudocode :=
  fun _ _ hwf => ⟨fun _ _ _ hf ht => exec_init_of_firstFit hwf hf ht, exec_init_of_no_fit hwf⟩

/-- Settles O18: a successful INIT committed the first fit, and no smaller divider fits because the table ascends. -/
theorem initChoosesTheFinestDivider : Obligations.InitChoosesTheFinestDivider := by
  intro s t p h hres
  obtain ⟨hwf, i, d, hf, hcs, htop⟩ := firstFit_of_init_succeeds h hres
  exact ⟨i, d, hf, hcs, htop, fun e he hfe => firstFit_le_of_fits hwf hf he hfe⟩

/-- Settles O19: the last divider is one that fits; at p = 1 the reference block takes its first divider though the last does not fit. -/
theorem initSucceedsWhereTheLargestDividerFits : Obligations.InitSucceedsWhereTheLargestDividerFits := by
  refine ⟨fun s p d hwf hlast hfit => ?_, fun s hclk hdiv => ⟨?_, ?_⟩⟩
  · obtain ⟨t, ht, hres⟩ := (init_succeeds_iff hwf).2 ⟨d, List.mem_of_getLast? hlast, hfit⟩
    refine ⟨t, ht, hres, ?_, Nat.le_of_lt_succ t.top.isLt⟩
    obtain ⟨-, ⟨i, e, cand, -, -, rfl⟩ | ⟨-, rfl⟩⟩ := exec_init_cases ht
    · rfl
    · exact absurd hres (by simp [onlyReports])
  · simp [candOf, hclk]
  · exact exec_init_reference_band hclk hdiv (d := 1) rfl (by omega) (by simp) rfl

/-- Settles O21: (TOP + 1) * d ≤ CLK_MHZ * p < (TOP + 2) * d, divided by CLK_MHZ. -/
theorem realisedPeriodIsWithinOneTick : Obligations.RealisedPeriodIsWithinOneTick := by
  intro s t p h hres
  obtain ⟨hwf, i, d, ⟨hd, -⟩, hcs, htop⟩ := firstFit_of_init_succeeds h hres
  obtain ⟨hlow, hhigh⟩ := product_bounds_of_eq_candOf (divider_pos hwf (List.mem_of_getElem? hd)) htop
  have hclk : (0 : ℚ) < s.config.clkMHz := by exact_mod_cast clkMHz_pos hwf
  have hlow : ((t.top.toNat : ℚ) + 1) * d ≤ s.config.clkMHz * p := by exact_mod_cast hlow
  have hhigh : (s.config.clkMHz : ℚ) * p < (t.top.toNat + 2) * d := by exact_mod_cast hhigh
  refine ⟨i, d, hd, hcs, ?_, ?_⟩
  · rw [sub_lt_iff_lt_add, ← add_div, lt_div_iff₀ hclk]
    linarith
  · rw [div_le_iff₀ hclk]
    linarith

/-- Settles O22: the product is below every divider in the first two cases, and every candidate is above 65535 in the third. -/
theorem degenerateAndLongPeriodsFail : Obligations.DegenerateAndLongPeriodsFail := by
  intro s p first last hwf hfirst hlast hp
  have hfirst_pos := divider_pos hwf (List.mem_of_mem_head? hfirst)
  have hcases : s.config.clkMHz * p < first ∨ 65535 < candOf s.config p last := by
    rcases hp with rfl | hp
    · exact .inl (by omega)
    · exact hp
  refine exec_init_of_no_fit hwf fun d hd ⟨hlow, hhigh⟩ => ?_
  have hd_pos := divider_pos hwf hd
  rcases hcases with hsmall | hlong
  · have hneg := (candOf_neg_iff hd_pos).2 (hsmall.trans_le (head_le_divider hwf hfirst hd))
    omega
  · have hle := candOf_antitone (c := s.config) (p := p) hd_pos (divider_le_getLast hwf hlast hd)
    omega

/-- Settles O23: a jump needs the ratio; without one, INIT succeeds where a divider fits, which the first and the last candidate decide. -/
theorem gapsNeedARatioAbove65537 : Obligations.GapsNeedARatioAbove65537 := by
  refine fun s p hwf => ⟨fun i d e hd he => ?_, fun first last hfirst hlast hratio => ?_⟩
  · exact ratio_of_jump hwf (List.mem_of_getElem? hd) (List.mem_of_getElem? he)
  · exact (init_succeeds_iff hwf).trans (exists_fits_iff_of_no_gap hwf hfirst hlast hratio)

/-- Settles O38: the committed state reports code 0 and the rolled-back one code 1, and both are written out. -/
theorem initFrame : Obligations.InitFrame := by
  intro s t p h
  obtain ⟨-, ⟨i, d, cand, -, -, rfl⟩ | ⟨-, rfl⟩⟩ := exec_init_cases h
  · simp [committed]
  · simp [onlyReports]

end Sys2Proof.Safety
end

section
/-! Proofs of the statements of 41_resolution.md: SETRES as the spelled-out state, and its frame. -/

namespace Sys2Proof.Safety

open Sys2Proof.Machine

/-- SETRES in the terms of R123: the width k is the smaller of the clamped request and flog2 TOP, RES is its mask, RESULT is k. -/
theorem negotiate_eq_mask_of_min (s : State) (bits : Nat) : s.negotiate bits = { s with
    res := BitVec.ofNat 16 (2 ^ min (min bits 16) (flog2 s.top.toNat) - 1), code := 0
    result := BitVec.ofNat 16 (min (min bits 16) (flog2 s.top.toNat)) } := rfl

/-- Settles O24: the achievable width is flog2 TOP, and an accepted configuration does not refuse the command. -/
theorem setresFollowsItsPseudocode : Obligations.SetresFollowsItsPseudocode :=
  fun s r hwf => ⟨flog2 s.top.toNat, isFlog2_flog2 _, exec_eq_next.2 ⟨hwf, (negotiate_eq_mask_of_min s r).symm⟩⟩

/-- Settles O39: the spelled-out state replaces RES, STATUS and RESULT only. -/
theorem setresFrame : Obligations.SetresFrame := by
  intro s t r h
  obtain ⟨-, rfl⟩ := exec_eq_next.1 h
  simp [effectOf, negotiate_eq_mask_of_min]

end Sys2Proof.Safety
end

section
/-! Proofs of the statements of 42_duty_mapper.md: WRITE and WRITEF as the spelled-out states of their cases, what WRITE reads and the shape of
its value, where WRITEF saturates. -/

namespace Sys2Proof.Safety

open Sys2Proof.Machine

/-! The cases of the two commands, as the states they complete with (R141, R152). -/

section cases
variable {s : State} (hwf : s.config.wf = true)
include hwf

/-- A duty command to an unknown channel only reports it (R141, R152, R173). -/
theorem exec_duty_of_unknown_channel {i : Instr} {ch x : Nat} (hi : i = .write ch x ∨ i = .writef ch x) (hch : 2 ≤ ch) :
    exec i s = .next (onlyReports s 2) := by
  rcases effectOf_duty_cases hi s with ⟨-, he⟩ | ⟨c, -, -, rfl, -⟩
  · exact exec_eq_next.2 ⟨hwf, he.symm⟩
  · exact absurd (idOf_lt_two c) (Nat.not_lt.2 hch)

/-- WRITE to a known channel while RES = 0 writes 0 and reports ZERO_RESOLUTION (R141, R174). -/
theorem exec_write_of_res_eq_zero (c : Channel) (d : Nat) (hres : s.res.toNat = 0) :
    exec (.write (idOf c) d) s = .next (driven s c 0 3) := by
  rw [exec_eq_next, effectOf, State.writeDuty, channelOfId_idOf]
  exact ⟨hwf, by simp only [hres, if_true]; exact (finish_drive_eq_driven s c 0 .zeroResolution).symm⟩

/-- WRITEF to a known channel writes 65535 for a product above the register width and reports FRAC_SATURATED (R152, R154). -/
theorem exec_writef_of_gt (c : Channel) (f : Nat) (hsat : 65535 < scaledFraction f s.top.toNat) :
    exec (.writef (idOf c) f) s = .next (driven s c 65535 4) := by
  have hsat : scaledFraction f s.top.toNat > topMax := hsat
  rw [exec_eq_next, effectOf, State.writeFraction, channelOfId_idOf]
  exact ⟨hwf, by simp only [hsat, if_true]; exact (finish_drive_eq_driven s c topMax .fracSaturated).symm⟩

end cases

/-- Settles O26: each case completes with its spelled-out state. -/
theorem writeFollowsItsPseudocode : Obligations.WriteFollowsItsPseudocode := by
  refine fun s ch d hwf => ⟨exec_duty_of_unknown_channel hwf (.inl rfl), ?_, ?_⟩
  · rintro c rfl hres
    exact exec_write_of_res_eq_zero hwf c d hres
  · rintro c rfl hres
    exact exec_write_of_res_ne_zero hwf c d hres

/-- Settles O31: each case completes with its spelled-out state. -/
theorem writefFollowsItsPseudocode : Obligations.WritefFollowsItsPseudocode := by
  refine fun s ch f hwf => ⟨exec_duty_of_unknown_channel hwf (.inr rfl), ?_, ?_⟩
  · rintro c rfl hsat
    exact exec_writef_of_gt hwf c f hsat
  · rintro c rfl hfit
    exact exec_writef_of_le hwf c f hfit

/-! The spelled-out state of a driven channel. -/

theorem driven_result (s : State) (c : Channel) (v : Nat) (k : BitVec 3) : (driven s c v k).result = 0 := by
  cases c <;> rfl

theorem driven_history (s : State) (c : Channel) (v : Nat) (k : BitVec 3) :
    (driven s c v k).history = s.history ++ [.setCompare c (BitVec.ofNat 16 v)] := by
  cases c <;> rfl

/-- A value of 16 bits is written unreduced. -/
theorem driven_cmp_toNat (s : State) (c : Channel) {v : Nat} (k : BitVec 3) (hv : v ≤ 65535) :
    ((driven s c v k).cmp c).toNat = v := by
  rw [driven_cmp, BitVec.toNat_ofNat, Nat.mod_eq_of_lt (Nat.lt_succ_of_le hv)]

/-! The value of WRITE (R143, R144, R146). -/

theorem scaledDuty_mono {d₁ d₂ : Nat} (h : d₁ ≤ d₂) (top res : Nat) : scaledDuty d₁ top res ≤ scaledDuty d₂ top res :=
  Nat.div_le_div_right (Nat.mul_le_mul_right top (min_le_min_right res h))

/-- Every duty of RES or more is clamped to RES (R143). -/
theorem scaledDuty_of_res_le {d res : Nat} (h : res ≤ d) (top : Nat) : scaledDuty d top res = scaledDuty res top res := by
  rw [scaledDuty, scaledDuty, clampDuty, clampDuty, Nat.min_eq_right h, Nat.min_self]

/-- While RES > 0 a completed WRITE left the scaled duty cycle in its compare register. -/
theorem write_cmp_toNat {s t : State} {c : Channel} {d : Nat} (hres : s.res.toNat ≠ 0)
    (h : exec (.write (idOf c) d) s = .next t) : (t.cmp c).toNat = scaledDuty d s.top.toNat s.res.toNat := by
  obtain ⟨hwf, -⟩ := exec_eq_next.1 h
  rw [exec_write_of_res_ne_zero hwf c d hres, Host.Outcome.next.injEq] at h
  rw [← h, driven_cmp_toNat s c 0 (Nat.le_of_lt_succ (scaledDuty_lt d s.res.toNat s.top))]

/-- Settles O27: the properties are those of the scaled duty cycle, which is the value written. -/
theorem writeRangeMonotonyAndBoundaries : Obligations.WriteRangeMonotonyAndBoundaries := by
  intro s c hwf hpos
  have hres : s.res.toNat ≠ 0 := Nat.ne_of_gt hpos
  have writes (d : Nat) (v : Reg) (hv : scaledDuty d s.top.toNat s.res.toNat = v.toNat) :
      ∃ t, exec (.write (idOf c) d) s = .next t ∧ t.cmp c = v := by
    refine ⟨_, exec_write_of_res_ne_zero hwf c d hres, ?_⟩
    rw [driven_cmp, hv, BitVec.ofNat_toNat, BitVec.setWidth_eq]
  refine ⟨fun d t h => ?_, fun d₁ d₂ t₁ t₂ hd h₁ h₂ => ?_, ?_, ?_, fun d hd => ?_, fun htop d => ?_⟩
  · rw [write_cmp_toNat hres h]
    exact scaledDuty_le d _ _
  · rw [write_cmp_toNat hres h₁, write_cmp_toNat hres h₂]
    exact scaledDuty_mono hd.le _ _
  · exact writes _ s.top (scaledDuty_full _ hres)
  · exact writes 0 0 (scaledDuty_zero _ _)
  · rw [exec_write_of_res_ne_zero hwf c d hres, exec_write_of_res_ne_zero hwf c _ hres, scaledDuty_of_res_le hd]
  · have hle := scaledDuty_le d s.top.toNat s.res.toNat
    rw [htop] at hle
    exact writes d 0 (by rw [htop]; exact Nat.le_zero.1 hle)

/-- The value and the code of a WRITE are the same for all states with equal TOP and RES (R145). -/
theorem exec_write_of_inputs (s : State) (c : Channel) (d : Nat) :
    ∃ v k, ∀ t : State, t.config.wf = true → s.top = t.top → s.res = t.res →
      exec (.write (idOf c) d) t = .next (driven t c v k) := by
  by_cases hres : s.res.toNat = 0
  · exact ⟨0, 3, fun t hwf _ hr => exec_write_of_res_eq_zero hwf c d (hr ▸ hres)⟩
  · refine ⟨scaledDuty d s.top.toNat s.res.toNat, 0, fun t hwf ht hr => ?_⟩
    rw [ht, hr]
    exact exec_write_of_res_ne_zero hwf c d (hr ▸ hres)

/-- Settles O28: both states are driven with one value and finish with one code. -/
theorem writeHasNoMemory : Obligations.WriteHasNoMemory := by
  intro s₁ s₂ t₁ t₂ c d htop hres h₁ h₂
  obtain ⟨v, k, hexec⟩ := exec_write_of_inputs s₁ c d
  rw [hexec s₁ (exec_eq_next.1 h₁).1 rfl rfl, Host.Outcome.next.injEq] at h₁
  rw [hexec s₂ (exec_eq_next.1 h₂).1 htop hres, Host.Outcome.next.injEq] at h₂
  subst h₁ h₂
  simp only [driven_cmp, driven_code, driven_result, driven_history, and_self]

/-! The value of WRITEF (R152 to R154). -/

/-- The product exceeds the register exactly from F * TOP = 2^32 on (R154). -/
theorem scaledFraction_gt_iff (f top : Nat) : 65535 < scaledFraction f top ↔ 2 ^ 32 ≤ f * top := by
  rw [scaledFraction, fracBits]
  omega

/-- WRITEF to a known channel saturates from F * TOP = 2^32 on, and below writes the product as it is (R152, R154). -/
theorem exec_writef_of_product {s : State} (hwf : s.config.wf = true) (c : Channel) (f : Nat) :
    ∃ t, exec (.writef (idOf c) f) s = .next t ∧ (2 ^ 32 ≤ f * s.top.toNat → t = driven s c 65535 4) ∧
      (f * s.top.toNat < 2 ^ 32 → t = driven s c (scaledFraction f s.top.toNat) 0) := by
  by_cases hsat : 65535 < scaledFraction f s.top.toNat
  · have hge := (scaledFraction_gt_iff _ _).1 hsat
    exact ⟨_, exec_writef_of_gt hwf c f hsat, fun _ => rfl, fun hlt => absurd hlt (Nat.not_lt.2 hge)⟩
  · have hlt := Nat.not_le.1 (mt (scaledFraction_gt_iff _ _).2 hsat)
    exact ⟨_, exec_writef_of_le hwf c f (Nat.not_lt.1 hsat), fun hge => absurd hlt (Nat.not_lt.2 hge), fun _ => rfl⟩

/-- Settles O32: saturation is decided by F * TOP ≥ 2^32, which at a fixed TOP is a bound on F. -/
theorem writefSaturatesExactlyAtTheRegisterWidth : Obligations.WritefSaturatesExactlyAtTheRegisterWidth := by
  intro s c f hwf hf
  obtain ⟨t, ht, hsat, hfit⟩ := exec_writef_of_product hwf c f
  have hcode : f * s.top.toNat < 2 ^ 32 → t.code = 0 := fun hlt => by rw [hfit hlt, driven_code]
  have hiff : t.code = 4 ↔ 2 ^ 32 ≤ f * s.top.toNat := by
    refine ⟨fun h4 => Nat.not_lt.1 fun hlt => ?_, fun hge => by rw [hsat hge, driven_code]⟩
    exact absurd ((hcode hlt).symm.trans h4) (by decide)
  refine ⟨t, ht, hiff, hsat, ?_, ?_, ?_, fun hone => hcode ?_, ?_⟩
  · intro htop; rw [hiff, htop]; omega
  · intro htop; rw [hiff, htop]; omega
  · intro htop; rw [hiff, htop]; omega
  · exact (mul_le_of_le_one_right f.zero_le hone).trans_lt hf
  · rintro v rfl - hv
    have hlt : f * s.top.toNat < 2 ^ 32 := by omega
    exact ⟨by rw [hfit hlt]; exact driven_cmp_toNat s c 0 hv, hcode hlt⟩

/-- RES passes through WRITEF: not read, not written (R153). -/
theorem writeFraction_with_res (s : State) (ch f : Nat) (r : Reg) :
    ({ s with res := r } : State).writeFraction ch f = { s.writeFraction ch f with res := r } := by
  rcases writeFraction_of_top s ch f with he | ⟨c, v, k, he⟩
  · rw [he, he]
    rfl
  · rw [he s rfl, he { s with res := r } rfl]
    cases c <;> rfl

/-- No case of WRITEF reports ZERO_RESOLUTION (R153, R174). -/
theorem writeFraction_code_ne_three (s : State) (ch f : Nat) : (s.writeFraction ch f).code ≠ 3 := by
  rcases writeFraction_cases s ch f with ⟨-, he⟩ | ⟨c, -, -, he⟩ | ⟨c, -, -, he⟩ <;>
    simp [he, StatusCode.bits]

/-- Settles O33: RES passes through, code 3 is no case's, and a product that fits the register is written as it is. -/
theorem writefIgnoresTheResolution : Obligations.WritefIgnoresTheResolution := by
  intro s t ch f r h
  obtain ⟨hwf, rfl⟩ := exec_eq_next.1 h
  refine ⟨exec_eq_next.2 ⟨hwf, (writeFraction_with_res s ch f r).symm⟩, writeFraction_code_ne_three s ch f, ?_⟩
  rintro c rfl hfit
  rw [exec_writef_of_le hwf c f hfit, Host.Outcome.next.injEq] at h
  rw [← h]
  exact ⟨driven_cmp_toNat s c 0 hfit, driven_code ..⟩

end Sys2Proof.Safety
end

section
/-! Proofs of the statements of 60_exceptions.md: the idle step, zero resolution, the unknown channel, and the order in which the errors are
reported. -/

namespace Sys2Proof.Safety

open Sys2Proof.Machine

/-- A step that finds no access has no effect (R190, log 9). -/
theorem stepEffect_of_no_access {s : State} (hp : s.pending = []) : stepEffect s = s := by
  rw [stepEffect, hp]

/-- Settles O14: in an accepted configuration the step is its effect, which is none. -/
theorem idleStepKeepsTheState : Obligations.IdleStepKeepsTheState :=
  fun _ hwf hp => step_eq_next.2 ⟨hwf, (stepEffect_of_no_access hp).symm⟩

/-- Settles O29: WRITE's case for RES = 0, and code 3 is no case of WRITEF. -/
theorem zeroResolutionMapsToZero : Obligations.ZeroResolutionMapsToZero := by
  refine ⟨fun s c d hwf hres => exec_write_of_res_eq_zero hwf c d (BitVec.toNat_eq.1 hres), fun s t ch f h => ?_⟩
  obtain ⟨-, rfl⟩ := exec_eq_next.1 h
  exact writeFraction_code_ne_three s ch f

/-- Settles O30: both duty commands only report an unknown channel. -/
theorem unknownChannelIsSignalledNoOp : Obligations.UnknownChannelIsSignalledNoOp :=
  fun _ _ _ hwf hch => ⟨exec_duty_of_unknown_channel hwf (.inl rfl) hch, exec_duty_of_unknown_channel hwf (.inr rfl) hch⟩

/-! The codes each command can report (R171, R178). -/

/-- INIT reports OK or UNREPRESENTABLE_PERIOD (R104, R105). -/
theorem solvePeriod_code (s : State) (p : Nat) : (s.solvePeriod p).code = 0 ∨ (s.solvePeriod p).code = 1 := by
  rcases solvePeriod_cases s p with ⟨i, cand, -, he⟩ | ⟨-, he⟩ <;> rw [he]
  · exact .inl rfl
  · exact .inr rfl

/-- WRITE reports an unknown channel; on a known one ZERO_RESOLUTION exactly for RES = 0 (R141, R142). -/
theorem writeDuty_code_cases (s : State) (ch d : Nat) :
    (2 ≤ ch ∧ s.writeDuty ch d = onlyReports s 2) ∨
    (ch < 2 ∧ s.res = 0 ∧ (s.writeDuty ch d).code = 3) ∨
    (ch < 2 ∧ s.res ≠ 0 ∧ (s.writeDuty ch d).code = 0) := by
  rcases writeDuty_cases s ch d with h | ⟨c, hc, hres, he⟩ | ⟨c, hc, hres, he⟩
  · exact .inl h
  · exact .inr (.inl ⟨eq_idOf_of_channelOfId hc ▸ idOf_lt_two c, BitVec.eq_of_toNat_eq hres, by rw [he]; rfl⟩)
  · exact .inr (.inr ⟨eq_idOf_of_channelOfId hc ▸ idOf_lt_two c, fun h0 => hres (BitVec.toNat_eq.1 h0), by rw [he]; rfl⟩)

/-- WRITEF reports an unknown channel; on a known one FRAC_SATURATED exactly from F * TOP = 2^32 on (R152, R154). -/
theorem writeFraction_code_cases (s : State) (ch f : Nat) :
    (2 ≤ ch ∧ s.writeFraction ch f = onlyReports s 2) ∨
    (ch < 2 ∧ 2 ^ 32 ≤ f * s.top.toNat ∧ (s.writeFraction ch f).code = 4) ∨
    (ch < 2 ∧ ¬ 2 ^ 32 ≤ f * s.top.toNat ∧ (s.writeFraction ch f).code = 0) := by
  rw [← scaledFraction_gt_iff]
  rcases writeFraction_cases s ch f with h | ⟨c, hc, hsat, he⟩ | ⟨c, hc, hfit, he⟩
  · exact .inl h
  · exact .inr (.inl ⟨eq_idOf_of_channelOfId hc ▸ idOf_lt_two c, hsat, by rw [he]; rfl⟩)
  · exact .inr (.inr ⟨eq_idOf_of_channelOfId hc ▸ idOf_lt_two c, Nat.not_lt.2 hfit, by rw [he]; rfl⟩)

/-- The priority of R178 for a duty command with an error e of its own, raised on a known channel exactly when P holds. -/
theorem unknown_channel_before_own_error {s t : State} {ch : Nat} {P : Prop} {e : BitVec 3} (h0 : e ≠ 0) (h2 : e ≠ 2)
    (h : (2 ≤ ch ∧ t = onlyReports s 2) ∨ (ch < 2 ∧ P ∧ t.code = e) ∨ (ch < 2 ∧ ¬ P ∧ t.code = 0)) :
    (t.code = 2 ↔ 2 ≤ ch) ∧ (t.code = e ↔ ch < 2 ∧ P) ∧ (2 ≤ ch → t = onlyReports s 2) ∧
      (t.code = 0 ∨ t.code = 2 ∨ t.code = e) := by
  rcases h with ⟨hch, rfl⟩ | ⟨hch, hP, hcode⟩ | ⟨hch, hP, hcode⟩
  · exact ⟨iff_of_true rfl hch, iff_of_false h2.symm fun h => absurd hch (Nat.not_le.2 h.1), fun _ => rfl, .inr (.inl rfl)⟩
  · have hknown := Nat.not_le.2 hch
    exact ⟨iff_of_false (hcode ▸ h2) hknown, iff_of_true hcode ⟨hch, hP⟩, fun h => absurd h hknown, .inr (.inr hcode)⟩
  · have hknown := Nat.not_le.2 hch
    exact ⟨iff_of_false (by simp [hcode]) hknown, iff_of_false (hcode ▸ h0.symm) fun h => hP h.2, fun h => absurd h hknown, .inl hcode⟩

/-- No command reports ILLEGAL_COMMAND (R175). -/
theorem effectOf_code_ne_five (i : Instr) (s : State) : (effectOf i s).code ≠ 5 := by
  cases i with
  | init p => rcases solvePeriod_code s p with h | h <;> simp [effectOf, h]
  | setres bits => simp [effectOf]
  | write ch d => rcases writeDuty_code_cases s ch d with ⟨-, h⟩ | ⟨-, -, h⟩ | ⟨-, -, h⟩ <;> simp [effectOf, h, onlyReports]
  | writef ch f => rcases writeFraction_code_cases s ch f with ⟨-, h⟩ | ⟨-, -, h⟩ | ⟨-, -, h⟩ <;> simp [effectOf, h, onlyReports]

/-- A word reports ILLEGAL_COMMAND exactly when it is illegal (R175, R178). -/
theorem wordEffect_code_eq_five_iff (w : CmdWord) (s : State) :
    (wordEffect w s).code = 5 ↔ ∃ why, decodeWord w = .illegal why := by
  rw [wordEffect]
  cases decodeWord w with
  | instr i => exact iff_of_false (effectOf_code_ne_five i s) nofun
  | illegal why => exact iff_of_true rfl ⟨why, rfl⟩

/-- Settles O35: a set RSV field makes the word illegal before its command is looked at, and only illegal words report 5; the other codes are
those of each command's cases. -/
theorem errorPriority : Obligations.ErrorPriority := by
  refine ⟨fun s t w rest hp hrsv h => ?_, fun s t w rest hp h => ?_, fun s t ch d h => ?_, fun s t ch f h => ?_,
    fun s t p h => ?_, fun s t r h => ?_⟩
  · obtain ⟨why, hd⟩ := (decodeWord_illegal_iff_grounds w).2 (.inl hrsv)
    obtain ⟨hwf, -⟩ := step_eq_next.1 h
    rw [illegalWordsReportOnly.2 s w why rest hwf hp hd, Host.Outcome.next.injEq] at h
    exact h.symm
  · obtain ⟨-, rfl⟩ := step_eq_next.1 h
    rw [stepEffect_of_headWord (w := w) (by rw [headWord, hp]), wordEffect_code_eq_five_iff]
  · obtain ⟨-, rfl⟩ := exec_eq_next.1 h
    exact unknown_channel_before_own_error (by decide) (by decide) (writeDuty_code_cases s ch d)
  · obtain ⟨-, rfl⟩ := exec_eq_next.1 h
    exact unknown_channel_before_own_error (by decide) (by decide) (writeFraction_code_cases s ch f)
  · obtain ⟨-, rfl⟩ := exec_eq_next.1 h
    exact solvePeriod_code s p
  · obtain ⟨-, rfl⟩ := exec_eq_next.1 h
    exact State.negotiate_code s r

end Sys2Proof.Safety
end

section
/-! Proof of the statement of 70_reset_and_hazards.md: what the reset input leaves. -/

namespace Sys2Proof.Safety

open Sys2Proof.Machine

/-- The registers of the reset state mirror the reset levels of the lines, whatever the host's lists hold (R33, R200, R201). -/
theorem lines_resetOf (c : Config) (p : List HostAccess) (r : List Reg) :
    ({ State.resetOf c with pending := p, replies := r } : State).lines = linesAtReset := rfl

/-- In an accepted configuration a step on the reset input completes with the reset state, whatever command it abandons; the accesses still
held stay (R200, log 7). -/
theorem step_of_reset {s : State} {abandoned : Option CmdWord} {rest : List HostAccess} (hwf : s.config.wf = true)
    (hp : s.pending = .reset abandoned :: rest) :
    step s = .next { State.resetOf s.config with pending := rest, replies := s.replies } := by
  refine step_eq_next.2 ⟨hwf, ?_⟩
  rw [stepEffect_of_takesReset ⟨abandoned, rest, hp⟩, hp, List.tail_cons]

/-- Settles O12: the step leaves the reset state but for the host's lists, which neither the registers, the lines nor the invariant speak of. -/
theorem resetLeavesTheResetState : Obligations.ResetLeavesTheResetState := by
  intro s abandoned rest hwf hp
  have hinv := inv_hostLists (inv_resetOf hwf) rest s.replies
  refine ⟨_, step_of_reset hwf hp, ?_⟩
  rw [lines_resetOf]
  exact ⟨rfl, rfl, rfl, rfl, rfl, rfl, rfl, rfl, rfl, rfl, rfl, rfl, rfl, rfl, rfl, rfl, rfl, hinv⟩

end Sys2Proof.Safety
end
